-- ==== Sys2Proof/Word.lean ====
section
/-!
DEFINITION. The machine's words (spec/00_scope.md R9, R10): every quantity is an unsigned bit vector of a fixed width.
-/

namespace Sys2Proof

/-- An 8-bit value: a general register, a memory byte, an immediate `kk` (R21, R26, R92). -/
abbrev Byte := BitVec 8

/-- A 16-bit value: `I`, `pc`, a stack entry, an instruction word (R23, R24, R30, R90). -/
abbrev Word := BitVec 16

/-- A 12-bit value: a memory address 0x000 to 0xFFF, an address field `nnn` (R60, R92). -/
abbrev Addr := BitVec 12

/-- A 4-bit value: a register index `x` or `y`, a row count `n`, a key index (R92, R225). -/
abbrev Nibble := BitVec 4

/-- Zero extension of a byte to 16 bits (R10, `zext_16`). -/
def Byte.toWord (b : Byte) : Word := b.setWidth 16

/-- Zero extension of an address to 16 bits (R10, R93, `zext_16`). -/
def Addr.toWord (a : Addr) : Word := a.setWidth 16

/-- A truth value as the byte 0x00 or 0x01, the only two values a flag takes (R160d). -/
def flagByte (b : Bool) : Byte := if b then 1 else 0

end Sys2Proof
end

