-- ==== Sys2Proof/Syntax.lean ====
section
/-!
DEFINITION. The instruction set (spec/30_encoding.md R100): one constructor for each of the 34 rows of
spec/opcode_table.json. Operands are the fields of the word at their own widths (R92), so a term of `Instr` names a
register 0 to 15, an address 0x000 to 0xFFF, a byte or a nibble and nothing else.
-/

namespace Sys2Proof

/-- A decoded instruction. `x` and `y` are register indices, `kk` an immediate byte, `nnn` an address, `n` a row count. -/
inductive Instr where
  /-- `CLS`, `00E0` (R211). -/
  | cls
  /-- `RET`, `00EE` (R141). -/
  | ret
  /-- `JP addr`, `1nnn` (R142). -/
  | jp (nnn : Addr)
  /-- `CALL addr`, `2nnn` (R143). -/
  | call (nnn : Addr)
  /-- `SE Vx, byte`, `3xkk` (R145). -/
  | seByte (x : Nibble) (kk : Byte)
  /-- `SNE Vx, byte`, `4xkk` (R146). -/
  | sneByte (x : Nibble) (kk : Byte)
  /-- `SE Vx, Vy`, `5xy?`: the low nibble of the word is ignored (R147, R99). -/
  | seReg (x y : Nibble)
  /-- `LD Vx, byte`, `6xkk` (R161). -/
  | ldByte (x : Nibble) (kk : Byte)
  /-- `ADD Vx, byte`, `7xkk` (R162). -/
  | addByte (x : Nibble) (kk : Byte)
  /-- `LD Vx, Vy`, `8xy0` (R163). -/
  | ldReg (x y : Nibble)
  /-- `OR Vx, Vy`, `8xy1` (R164). -/
  | orReg (x y : Nibble)
  /-- `AND Vx, Vy`, `8xy2` (R165). -/
  | andReg (x y : Nibble)
  /-- `XOR Vx, Vy`, `8xy3` (R166). -/
  | xorReg (x y : Nibble)
  /-- `ADD Vx, Vy`, `8xy4` (R167). -/
  | addReg (x y : Nibble)
  /-- `SUB Vx, Vy`, `8xy5` (R168). -/
  | subReg (x y : Nibble)
  /-- `SHR Vx {, Vy}`, `8xy6` (R169). -/
  | shr (x y : Nibble)
  /-- `SUBN Vx, Vy`, `8xy7` (R170). -/
  | subn (x y : Nibble)
  /-- `SHL Vx {, Vy}`, `8xyE` (R171). -/
  | shl (x y : Nibble)
  /-- `SNE Vx, Vy`, `9xy?`: the low nibble of the word is ignored (R148, R99). -/
  | sneReg (x y : Nibble)
  /-- `LD I, addr`, `Annn` (R191). -/
  | ldI (nnn : Addr)
  /-- `JP V0, addr`, `Bnnn` (R144). -/
  | jpV0 (nnn : Addr)
  /-- `RND Vx, byte`, `Cxkk` (R172). -/
  | rnd (x : Nibble) (kk : Byte)
  /-- `DRW Vx, Vy, nibble`, `Dxyn` (R212). -/
  | drw (x y n : Nibble)
  /-- `SKP Vx`, `Ex9E` (R226). -/
  | skp (x : Nibble)
  /-- `SKNP Vx`, `ExA1` (R227). -/
  | sknp (x : Nibble)
  /-- `LD Vx, DT`, `Fx07` (R229). -/
  | ldVxDt (x : Nibble)
  /-- `LD Vx, K`, `Fx0A` (R228). -/
  | ldVxK (x : Nibble)
  /-- `LD DT, Vx`, `Fx15` (R230). -/
  | ldDtVx (x : Nibble)
  /-- `LD ST, Vx`, `Fx18` (R231). -/
  | ldStVx (x : Nibble)
  /-- `ADD I, Vx`, `Fx1E` (R192). -/
  | addI (x : Nibble)
  /-- `LD F, Vx`, `Fx29` (R193). -/
  | ldF (x : Nibble)
  /-- `LD B, Vx`, `Fx33` (R194). -/
  | ldB (x : Nibble)
  /-- `LD [I], Vx`, `Fx55` (R195). -/
  | ldMemVx (x : Nibble)
  /-- `LD Vx, [I]`, `Fx65` (R196). -/
  | ldVxMem (x : Nibble)
  deriving DecidableEq, Repr

end Sys2Proof
end

