-- ==== Sys2Proof/WellFormed.lean ====
section
/-!
DEFINITION. What is checked of a term before the machine takes it.
Every value of every instruction field is legal (spec/30_encoding.md R92) and each operand has its field's own width,
so every `Instr` is well formed. The one input the machine checks is a ROM (spec/70_reset_and_hazards.md R304).
-/

namespace Sys2Proof

/-- Well-formed instructions: all of them, since "every value is legal" in every field (R92). -/
def Instr.wellFormed : Instr → Bool
  | .cls | .ret => true
  | .jp _ | .call _ | .ldI _ | .jpV0 _ => true
  | .seByte _ _ | .sneByte _ _ | .ldByte _ _ | .addByte _ _ | .rnd _ _ => true
  | .seReg _ _ | .sneReg _ _ => true
  | .ldReg _ _ | .orReg _ _ | .andReg _ _ | .xorReg _ _ | .addReg _ _ | .subReg _ _ => true
  | .shr _ _ | .subn _ _ | .shl _ _ => true
  | .drw _ _ _ => true
  | .skp _ | .sknp _ | .ldVxDt _ | .ldVxK _ | .ldDtVx _ | .ldStVx _ => true
  | .addI _ | .ldF _ | .ldB _ | .ldMemVx _ | .ldVxMem _ => true

/-- `ROM_MAX`: the largest ROM, 4096 - 512 bytes (R7). -/
def romMax : Nat := 3584

/-- A ROM that `load_rom` accepts: at most `ROM_MAX` bytes (R303, R304). -/
def romWellFormed (bytes : List Byte) : Bool := decide (bytes.length ≤ romMax)

end Sys2Proof
end

