-- ==== Sys2Proof/Decode.lean ====
section
/-!
DEFINITION. Decoding and encoding of the 16-bit instruction word (spec/30_encoding.md).
Decoding is a pure function of the word (R94): stage one on the high nibble, stage two in groups 0, 8, E and F.
Every bit pattern is the spec's (R91 to R100), which supplies it from general knowledge (G1, G2; log 22). Which words are
recognised in groups 0, 5, 8, 9, E and F is the spec's decision (D6, D7; log 27).
-/

namespace Sys2Proof

/-! ### Fields (R92) -/

/-- `g = op[15:12]`, the group. -/
def opG (op : Word) : Nibble := op.extractLsb' 12 4
/-- `x = op[11:8]`. -/
def opX (op : Word) : Nibble := op.extractLsb' 8 4
/-- `y = op[7:4]`. -/
def opY (op : Word) : Nibble := op.extractLsb' 4 4
/-- `n = op[3:0]`. -/
def opN (op : Word) : Nibble := op.extractLsb' 0 4
/-- `kk = op[7:0]`, also the selector `ss` of groups E and F. -/
def opKK (op : Word) : Byte := op.extractLsb' 0 8
/-- `nnn = op[11:0]`. -/
def opNNN (op : Word) : Addr := op.extractLsb' 0 12

/-! ### Decoding -/

/-- Why a decode gives no instruction. -/
inductive DecodeError where
  /-- The word matches no row of the opcode map (R102, R104); executing it raises `UnknownOpcode`. -/
  | unknownOpcode (op : Word)
  /-- Fewer than the two bytes of a word (R90); raised by `decodeBytes` only, never by the dispatcher's fetch. -/
  | truncated
  deriving DecidableEq, Repr

/-- Group 0, on the whole word (R95). -/
def decodeGroup0 (op : Word) : Except DecodeError Instr :=
  if op = 0x00E0 then .ok .cls
  else if op = 0x00EE then .ok .ret
  else .error (.unknownOpcode op)

/-- Group 8, on `n` (R96). -/
def decodeGroup8 (op : Word) : Except DecodeError Instr :=
  let x := opX op
  let y := opY op
  match (opN op).toNat with
  | 0x0 => .ok (.ldReg x y)
  | 0x1 => .ok (.orReg x y)
  | 0x2 => .ok (.andReg x y)
  | 0x3 => .ok (.xorReg x y)
  | 0x4 => .ok (.addReg x y)
  | 0x5 => .ok (.subReg x y)
  | 0x6 => .ok (.shr x y)
  | 0x7 => .ok (.subn x y)
  | 0xE => .ok (.shl x y)
  | _ => .error (.unknownOpcode op)

/-- Group E, on `ss` (R97). -/
def decodeGroupE (op : Word) : Except DecodeError Instr :=
  let x := opX op
  if opKK op = 0x9E then .ok (.skp x)
  else if opKK op = 0xA1 then .ok (.sknp x)
  else .error (.unknownOpcode op)

/-- Group F, on `ss` (R98). -/
def decodeGroupF (op : Word) : Except DecodeError Instr :=
  let x := opX op
  if opKK op = 0x07 then .ok (.ldVxDt x)
  else if opKK op = 0x0A then .ok (.ldVxK x)
  else if opKK op = 0x15 then .ok (.ldDtVx x)
  else if opKK op = 0x18 then .ok (.ldStVx x)
  else if opKK op = 0x1E then .ok (.addI x)
  else if opKK op = 0x29 then .ok (.ldF x)
  else if opKK op = 0x33 then .ok (.ldB x)
  else if opKK op = 0x55 then .ok (.ldMemVx x)
  else if opKK op = 0x65 then .ok (.ldVxMem x)
  else .error (.unknownOpcode op)

/-- The instruction a word stands for, or the reason there is none (R94 to R99). The last arm is `g = 0xF`. -/
def decodeWord (op : Word) : Except DecodeError Instr :=
  match (opG op).toNat with
  | 0x0 => decodeGroup0 op
  | 0x1 => .ok (.jp (opNNN op))
  | 0x2 => .ok (.call (opNNN op))
  | 0x3 => .ok (.seByte (opX op) (opKK op))
  | 0x4 => .ok (.sneByte (opX op) (opKK op))
  | 0x5 => .ok (.seReg (opX op) (opY op))
  | 0x6 => .ok (.ldByte (opX op) (opKK op))
  | 0x7 => .ok (.addByte (opX op) (opKK op))
  | 0x8 => decodeGroup8 op
  | 0x9 => .ok (.sneReg (opX op) (opY op))
  | 0xA => .ok (.ldI (opNNN op))
  | 0xB => .ok (.jpV0 (opNNN op))
  | 0xC => .ok (.rnd (opX op) (opKK op))
  | 0xD => .ok (.drw (opX op) (opY op) (opN op))
  | 0xE => decodeGroupE op
  | _ => decodeGroupF op

/-- The word of two bytes, the byte at the lower address first: it is the HIGH byte (R64, R65). -/
def wordOfBytes (hi lo : Byte) : Word := hi ++ lo

/-- Decode the first instruction of a list of bytes in address order, with the bytes after it (R90). -/
def decodeBytes : List Byte → Except DecodeError (Instr × List Byte)
  | hi :: lo :: rest => (decodeWord (wordOfBytes hi lo)).map (fun i => (i, rest))
  | _ => .error .truncated

/-! ### Encoding -/

/-- A `NNN` word (R91). -/
def fmtNNN (g : Nibble) (nnn : Addr) : Word := g ++ nnn
/-- An `XKK` word, also `XSS` with the selector for `kk` (R91). -/
def fmtXKK (g x : Nibble) (kk : Byte) : Word := (g ++ x) ++ kk
/-- An `XYN` word (R91). -/
def fmtXYN (g x y n : Nibble) : Word := (g ++ x) ++ (y ++ n)

/-- The word of an instruction, by R100. In groups 5 and 9 the ignored nibble is 0, "the canonical encoding" (R99). -/
def encode : Instr → Word
  | .cls => 0x00E0
  | .ret => 0x00EE
  | .jp nnn => fmtNNN 0x1 nnn
  | .call nnn => fmtNNN 0x2 nnn
  | .seByte x kk => fmtXKK 0x3 x kk
  | .sneByte x kk => fmtXKK 0x4 x kk
  | .seReg x y => fmtXYN 0x5 x y 0x0
  | .ldByte x kk => fmtXKK 0x6 x kk
  | .addByte x kk => fmtXKK 0x7 x kk
  | .ldReg x y => fmtXYN 0x8 x y 0x0
  | .orReg x y => fmtXYN 0x8 x y 0x1
  | .andReg x y => fmtXYN 0x8 x y 0x2
  | .xorReg x y => fmtXYN 0x8 x y 0x3
  | .addReg x y => fmtXYN 0x8 x y 0x4
  | .subReg x y => fmtXYN 0x8 x y 0x5
  | .shr x y => fmtXYN 0x8 x y 0x6
  | .subn x y => fmtXYN 0x8 x y 0x7
  | .shl x y => fmtXYN 0x8 x y 0xE
  | .sneReg x y => fmtXYN 0x9 x y 0x0
  | .ldI nnn => fmtNNN 0xA nnn
  | .jpV0 nnn => fmtNNN 0xB nnn
  | .rnd x kk => fmtXKK 0xC x kk
  | .drw x y n => fmtXYN 0xD x y n
  | .skp x => fmtXKK 0xE x 0x9E
  | .sknp x => fmtXKK 0xE x 0xA1
  | .ldVxDt x => fmtXKK 0xF x 0x07
  | .ldVxK x => fmtXKK 0xF x 0x0A
  | .ldDtVx x => fmtXKK 0xF x 0x15
  | .ldStVx x => fmtXKK 0xF x 0x18
  | .addI x => fmtXKK 0xF x 0x1E
  | .ldF x => fmtXKK 0xF x 0x29
  | .ldB x => fmtXKK 0xF x 0x33
  | .ldMemVx x => fmtXKK 0xF x 0x55
  | .ldVxMem x => fmtXKK 0xF x 0x65

/-- The high byte of a word, stored at the lower address (R65). -/
def hiByte (w : Word) : Byte := w.extractLsb' 8 8
/-- The low byte of a word, stored at the higher address (R65). -/
def loByte (w : Word) : Byte := w.extractLsb' 0 8

/-- The two bytes of a word in address order (R65). -/
def bytesOfWord (w : Word) : List Byte := [hiByte w, loByte w]

/-- The two bytes of an instruction in address order (R90, R65). -/
def encodeBytes (i : Instr) : List Byte := bytesOfWord (encode i)

/-- The word of an opcode-table row: its bits below `nbits`, the bits above them 0. Each row has 16 bits (R90). -/
def tableWord (nbits w : Nat) : Word := BitVec.ofNat 16 (w % 2 ^ nbits)

/-- What the decoder reads from an opcode-table word, laid out in memory as the hardware stores it (R65). -/
def decodeTableWord (nbits w : Nat) : Option Instr :=
  match decodeBytes (bytesOfWord (tableWord nbits w)) with
  | .ok (i, _) => some i
  | .error _ => none

end Sys2Proof
end

