-- ==== Sys2Proof/Config.lean ====
section
/-!
DEFINITION. What an implementation fixes and the free values (spec/00_scope.md R8, spec/42_alu.md R175, R176).
Here stand the types of the parameters and the two values that NOTHING in the model knows: they are opaque, so every
claim holds whatever they are. The parameters to which the spec gives a value stand in Machine/Params.lean.
-/

namespace Sys2Proof

/-- `SHIFT_SRC`: which register supplies the value `SHR` and `SHL` shift (R175). -/
inductive ShiftSrc where
  /-- The shifted value is read from `V[x]`; the `y` field is ignored. -/
  | X
  /-- The shifted value is read from `V[y]`. -/
  | Y
  deriving DecidableEq, Repr, Inhabited

/-- `LOW_STORE_POLICY`: what a store instruction below 0x200 does (R67). -/
inductive LowStorePolicy where
  /-- It raises `StoreProtected` and writes nothing. -/
  | fault
  /-- It stores like any other. -/
  | allow
  deriving DecidableEq, Repr, Inhabited

/-- DESIGN CHOICE (log 2). `SHIFT_SRC`, which the spec leaves OPEN with no default (R8, R175, D11): one of its two values
for the life of the machine, and no proof can see which. -/
opaque Config.shiftSrc : ShiftSrc

/-- DESIGN CHOICE (log 1). The bytes `RND` draws, one for each value of the counter `State.draws`: "a free input of the
step: the model assumes nothing of it" (R176, D25). -/
opaque Config.draw : Nat → Byte

end Sys2Proof
end

