-- ==== Sys2Proof/Machine/Params.lean ====
section
/-!
DEFINITION. The parameters to which the spec gives a value (spec/00_scope.md R7, R8), one definition each.
-/

namespace Sys2Proof

/-- `TIMER_FIRST`: the timer phase is the first thing a step does (R122, D2; log 3). -/
def Config.timerFirst : Bool := true

/-- `LOW_STORE_POLICY` (R67, D13; log 4). -/
def Config.lowStorePolicy : LowStorePolicy := .fault

/-- `MEM_INIT`: memory outside the font after reset (R48, D22; log 5). -/
def Config.memInit : Byte := 0x00

/-- `FONT_BASE` (R27, D24; log 6). -/
def Config.fontBase : Nat := 0x000

/-- `FONT`: 16 glyphs of 5 row bytes (R27, D24; log 6). -/
def Config.font : List Byte :=
  [0xF0, 0x90, 0x90, 0x90, 0xF0,  -- 0
   0x20, 0x60, 0x20, 0x20, 0x70,  -- 1
   0xF0, 0x10, 0xF0, 0x80, 0xF0,  -- 2
   0xF0, 0x10, 0xF0, 0x10, 0xF0,  -- 3
   0x90, 0x90, 0xF0, 0x10, 0x10,  -- 4
   0xF0, 0x80, 0xF0, 0x10, 0xF0,  -- 5
   0xF0, 0x80, 0xF0, 0x90, 0xF0,  -- 6
   0xF0, 0x10, 0x20, 0x40, 0x40] ++  -- 7
  [0xF0, 0x90, 0xF0, 0x90, 0xF0,  -- 8
   0xF0, 0x90, 0xF0, 0x10, 0xF0,  -- 9
   0xF0, 0x90, 0xF0, 0x90, 0x90,  -- A
   0xE0, 0x90, 0xE0, 0x90, 0xE0,  -- B
   0xF0, 0x80, 0x80, 0x80, 0xF0,  -- C
   0xE0, 0x90, 0x90, 0x90, 0xE0,  -- D
   0xF0, 0x80, 0xF0, 0x80, 0xF0,  -- E
   0xF0, 0x80, 0xF0, 0x80, 0x80]  -- F

/-- `PROG_BASE`: the first address of the program region; below it no program may store (R7, R61, R67). -/
def Config.progBase : Nat := 0x200

/-- `PC_MAX`: the largest valid program counter (R7, R24). -/
def Config.pcMax : Nat := 0xFFE

end Sys2Proof
end

