-- ==== Sys2Proof/Machine/State.lean ====
section
/-!
DEFINITION. The state of the machine as plain data (spec/10_state.md R20), the reasons it halts, and its reset value (R48).
-/

namespace Sys2Proof.Machine

/-- The three dispatcher states (R38). -/
inductive RunState where
  /-- Steps fetch and execute. -/
  | running
  /-- `LD Vx, K` is waiting: steps only run the wait phase (R123). -/
  | waitingForKey
  /-- A fault has halted the dispatcher; only reset leaves this state (R38, R259). -/
  | halted
  deriving DecidableEq, Repr

/-- The closed list of faults (R250, R262), with the information each records.

The spec DESCRIBES what raising one does (R256: `run_state <- Halted; halt_cause <- F`), so every one of them is TAKEN: the
step answers a NEXT state in which `haltCause` holds it, and no step or meaning answers `Outcome.fault` (log 8). That is
safe: the state says everything the spec says of the fault. -/
inductive Fault where
  /-- Raised by the decode phase on an unrecognised word (R251); safe, the spec's own effect. -/
  | unknownOpcode (pc opcode : Word)
  /-- Raised by `CALL` when `sp = 16` (R252); safe, the spec's own effect. -/
  | stackOverflow
  /-- Raised by `RET` when `sp = 0` (R253); safe, the spec's own effect. -/
  | stackUnderflow
  /-- Raised by the fetch phase when `pc > 0xFFE` (R254); safe, the spec's own effect. -/
  | fetchOutOfRange (pc : Word)
  /-- Raised by `LD B, Vx` and `LD [I], Vx` on an address below 0x200 (R255); safe, the spec's own effect. -/
  | storeProtected (addr : Addr)
  deriving DecidableEq, Repr

/-- Why an instruction is given no meaning. -/
inductive Refusal where
  /-- An arm of `exec` that has no meaning yet, by its mnemonic; safe: nothing can be proved of it. No arm answers it now. -/
  | notModelled (mnemonic : String)
  deriving DecidableEq, Repr

/-- Memory: the bytes that differ from their reset contents, as (address, byte) pairs with strictly rising addresses
(R26, R60). What an unlisted address reads as is `Memory.initial` (Machine/Memory.lean); `Memory.wf` says the form holds. -/
abbrev Memory := List Host.Cell

/-- The display: 2048 cells of one bit, row-major, cell `y*64 + x` of R29 being bit `y*64 + x` (R28; log 11). -/
abbrev Display := BitVec 2048

/-- The complete state of the block (R20); nothing else persists. -/
structure State where
  /-- `V[0..15]`, the general registers; `V[15]` is also `VF` (R21, R22). -/
  V : Vector Byte 16
  /-- The 16-bit index register, of which 12 bits address memory (R23). -/
  I : Word
  /-- The program counter: the address of the next instruction to fetch, or of the one executing (R24). -/
  pc : Word
  /-- `mem[0..4095]` (R26). -/
  mem : Memory
  /-- `disp[0..2047]` (R28). -/
  disp : Display
  /-- `stack[0..15]`: call-site addresses (R30). -/
  stack : Vector Word 16
  /-- The number of stack entries in use, 0 to 16 (R31, R32; log 10). -/
  sp : Fin 17
  /-- The delay timer (R35). -/
  delay : Byte
  /-- The sound timer (R36). -/
  sound : Byte
  /-- `key[0..15]`: true is pressed (R37). -/
  key : Vector Bool 16
  /-- `run_state` (R38). -/
  runState : RunState
  /-- `wait_reg`: the destination of the `LD Vx, K` that waits (R39). -/
  waitReg : Nibble
  /-- `halt_cause` (R40). -/
  haltCause : Option Fault
  /-- `tick_pending` (R41). -/
  tickPending : Bool
  /-- `redraw_pending` (R42). -/
  redrawPending : Bool
  /-- `beep_pending` (R43). -/
  beepPending : Bool
  /-- THE MODEL'S OWN: how many bytes `RND` has drawn, so that the next one is `Config.draw draws` (log 1). -/
  draws : Nat
  deriving DecidableEq, Repr

/-- The machine right after reset (R48, R300): memory holds its reset contents, so nothing is listed.
The values of `pc`, `key`, `waitReg`, `haltCause` and the latches are the spec's decision D22 (log 5). -/
def State.reset : State where
  V := Vector.replicate 16 0
  I := 0
  pc := 0x0200
  mem := []
  disp := 0
  stack := Vector.replicate 16 0
  sp := 0
  delay := 0
  sound := 0
  key := Vector.replicate 16 false
  runState := .running
  waitReg := 0
  haltCause := none
  tickPending := false
  redrawPending := false
  beepPending := false
  draws := 0

end Sys2Proof.Machine
end

