-- ==== Sys2Proof/Machine/Memory.lean ====
section
/-!
DEFINITION. Memory operations (spec/20_memory.md R60 to R63) over the list of bytes that differ from reset, and the
canonical form of that list. Addresses are 12 bits, so no access can name an address outside 0x000 to 0xFFF (R60, R62, R63).
-/

namespace Sys2Proof.Machine

/-- What an unlisted address reads as: its reset contents, the font and `MEM_INIT` (R27, R48; logs 5, 6, 7). -/
def Memory.initial (a : Nat) : Byte :=
  if Config.fontBase ≤ a then Config.font.getD (a - Config.fontBase) Config.memInit else Config.memInit

/-- The byte at a key of the list, or its reset contents. -/
def Memory.get : Memory → Nat → Byte
  | [], a => Memory.initial a
  | (k, b) :: rest, a => if a = k then b else Memory.get rest a

/-- The list without the key `a`, which then reads as its reset contents. -/
def Memory.erase (m : Memory) (a : Nat) : Memory := m.filter (fun c => decide (c.1 ≠ a))

/-- The list with the cell (a, b) put before the first larger key. -/
def Memory.insert : Memory → Nat → Byte → Memory
  | [], a, b => [(a, b)]
  | (k, c) :: rest, a, b => if a < k then (a, b) :: (k, c) :: rest else (k, c) :: Memory.insert rest a b

/-- The list with the byte at key `a` set to `b`, in canonical form again: a byte equal to its reset contents is not listed. -/
def Memory.set (m : Memory) (a : Nat) (b : Byte) : Memory :=
  if b = Memory.initial a then Memory.erase m a else Memory.insert (Memory.erase m a) a b

/-- The canonical form above a bound: addresses rise from `lo` and stay below 4096, no entry equals its reset contents. -/
def Memory.wfFrom : Nat → Memory → Bool
  | _, [] => true
  | lo, (k, b) :: rest =>
    decide (lo ≤ k) && decide (k < 4096) && decide (b ≠ Memory.initial k) && Memory.wfFrom (k + 1) rest

/-- The canonical form, in which equal memories are equal lists. -/
def Memory.wf (m : Memory) : Bool := Memory.wfFrom 0 m

/-- `MemRead(addr, 1)` (R62): it changes no state. -/
def State.memRead (s : State) (a : Addr) : Byte := Memory.get s.mem a.toNat

/-- `MemWrite(addr, 1, v)` (R63), without the low-region check, which the store instructions make first (R67). -/
def State.memWrite (s : State) (a : Addr) (b : Byte) : State := { s with mem := Memory.set s.mem a.toNat b }

end Sys2Proof.Machine
end

