-- ==== Sys2Proof/Machine/Ops.lean ====
section
/-!
DEFINITION. The named operations over registers, program counter, stack, run state, timers, keypad and memory runs
(spec/10_state.md, 20_memory.md, 40_dispatcher_step.md, 60_exceptions.md). Every meaning is built from these.
-/

namespace Sys2Proof.Machine

/-- What a meaning or a step answers. -/
abbrev Result := Host.Outcome State Fault Refusal

/-! ### General registers (R10, R21) -/

/-- `V[r]`. -/
def State.reg (s : State) (r : Nibble) : Byte := s.V[r.toNat]'(r.isLt)

/-- `V[r] <- b`. -/
def State.setReg (s : State) (r : Nibble) (b : Byte) : State := { s with V := s.V.set r.toNat b r.isLt }

/-- The index of `VF`, the register flags are delivered to (R12, R22). -/
def flagReg : Nibble := 0xF

/-! ### Index register and program counter -/

/-- `I <- w` (R23). -/
def State.setI (s : State) (w : Word) : State := { s with I := w }

/-- `pc <- w` (R24): not checked when written (R140). -/
def State.setPc (s : State) (w : Word) : State := { s with pc := w }

/-- The default advance, `pc <- trunc_16(pc + 2)` (R126). -/
def State.advance (s : State) : State := s.setPc (s.pc + 2)

/-- The advance of a conditional skip: 4 when the condition holds, else 2 (R126). -/
def State.skipIf (s : State) (c : Bool) : State := s.setPc (s.pc + (if c then 4 else 2))

/-! ### Faults (R256) -/

/-- FAULT ENTRY, the one operation that takes a fault (R256): `run_state <- Halted; halt_cause <- F`, and nothing else
(R257). There is no handler, no saved state and no return from it (R259). -/
def State.halt (s : State) (f : Fault) : State := { s with runState := .halted, haltCause := some f }

/-- `raise F`: the next state is the halted one (log 8). -/
def raise (f : Fault) (s : State) : Result := .next (s.halt f)

/-! ### Call stack (R30 to R34) -/

/-- `Push(v)` (R33). -/
def State.push (s : State) (v : Word) : Except Fault State :=
  if h : s.sp.val < 16 then
    .ok { s with stack := s.stack.set s.sp.val v h, sp := ⟨s.sp.val + 1, by omega⟩ }
  else .error .stackOverflow

/-- `Pop()` (R34): the entry keeps its value in the array. -/
def State.pop (s : State) : Except Fault (Word × State) :=
  if h : s.sp.val = 0 then .error .stackUnderflow
  else .ok (s.stack[s.sp.val - 1]'(by omega), { s with sp := ⟨s.sp.val - 1, by omega⟩ })

/-! ### Effective addresses and memory runs (R66, R67) -/

/-- `EA(k) = (I + k) mod 4096` (R66). -/
def State.ea (s : State) (k : Nat) : Addr := BitVec.ofNat 12 (s.I.toNat + k)

/-- The bytes at `EA(0)` to `EA(n-1)`. -/
def State.readRun (s : State) (n : Nat) : List Byte := (List.range n).map (fun k => s.memRead (s.ea k))

/-- The address at the lowest offset below `n` that lies below 0x200, if there is one (R67, R255). -/
def State.lowAddr (s : State) (n : Nat) : Option Addr :=
  ((List.range n).map s.ea).find? (fun a => decide (a.toNat < Config.progBase))

/-- The bytes written at `EA(k)`, `EA(k+1)`, ... in order. -/
def State.writeRun (s : State) : Nat → List Byte → State
  | _, [] => s
  | k, b :: bs => State.writeRun (s.memWrite (s.ea k) b) (k + 1) bs

/-- A store instruction's run (R67, R194, R195): under the policy `fault` every address is checked before any byte is
written, and the lowest offending offset's address is reported; then the bytes are written at `EA(0)` onward. -/
def State.store (s : State) (policy : LowStorePolicy) (bytes : List Byte) : Except Fault State :=
  match policy, s.lowAddr bytes.length with
  | .fault, some a => .error (.storeProtected a)
  | _, _ => .ok (s.writeRun 0 bytes)

/-- `V[k] <- b` for the bytes of a list, from register `k` up (R196); a register past 15 does not exist. -/
def State.loadRegs (s : State) : Nat → List Byte → State
  | _, [] => s
  | k, b :: bs => State.loadRegs { s with V := s.V.setIfInBounds k b } (k + 1) bs

/-! ### Display (R28, R29) -/

/-- The cell of pixel (px, py): `y*64 + x` (R29). -/
def cellIndex (px py : Nat) : Nat := py * 64 + px

/-- Pixel (px, py) of the display, 0 or 1 (R29). -/
def State.pixel (s : State) (px py : Nat) : Bool := s.disp.getLsbD (cellIndex px py)

/-- `disp <- d; redraw_pending <- 1` (R211, R212, R216). -/
def State.showDisp (s : State) (d : Display) : State := { s with disp := d, redrawPending := true }

/-! ### Keypad (R37, R232) -/

/-- `key[k]`. -/
def State.keyDown (s : State) (k : Nibble) : Bool := s.key[k.toNat]'(k.isLt)

/-- `key[k] <- p`. -/
def State.putKey (s : State) (k : Nibble) (p : Bool) : State := { s with key := s.key.set k.toNat p k.isLt }

/-- The least pressed key, if any is pressed (R123, D18). -/
def State.leastKey (s : State) : Option Nibble :=
  (s.key.toList.findIdx? id).map (fun k => BitVec.ofNat 4 k)

/-! ### Timers (R35, R36) -/

/-- `delay <- b` (R230). -/
def State.setDelay (s : State) (b : Byte) : State := { s with delay := b }

/-- `sound <- b` (R231): it raises no beep (D21). -/
def State.setSound (s : State) (b : Byte) : State := { s with sound := b }

/-- One decrement, stopping at 0 (R35, R272). -/
def countDown (b : Byte) : Byte := if b = 0 then 0 else b - 1

/-- THE TIMER PHASE (R272): a pending tick is consumed, both timers count down, and `sound` going from 1 to 0 raises the
beep event (R273). Without a pending tick nothing changes. -/
def State.timerPhase (s : State) : State :=
  if s.tickPending then
    { s with
      tickPending := false
      delay := countDown s.delay
      sound := countDown s.sound
      beepPending := s.beepPending || decide (s.sound = 1) }
  else s

/-! ### Waiting for a key (R123, R228) -/

/-- Enter `WaitingForKey` for register `x`: `pc` is not advanced and no key is sampled (R228). -/
def State.startWait (s : State) (x : Nibble) : State := { s with waitReg := x, runState := .waitingForKey }

/-- THE WAIT PHASE (R123): the least pressed key is recorded in the waiting register and consumed, `pc` advances by 2 and
the dispatcher runs again; with no key pressed nothing changes. -/
def State.waitPhase (s : State) : State :=
  match s.leastKey with
  | some k =>
    let t := ((s.setReg s.waitReg (k.setWidth 8)).putKey k false).advance
    { t with runState := .running }
  | none => s

/-! ### Random bytes (R172, R176) -/

/-- `draw()`: a free byte, and the state in which the next draw is another one (log 1). -/
def State.draw (s : State) : Byte × State := (Config.draw s.draws, { s with draws := s.draws + 1 })

/-! ### Fetch (R64) -/

/-- The word at an address, high byte first; called for `pc <= 0xFFE` only (R64, R65). -/
def State.wordAt (s : State) (a : Word) : Word :=
  wordOfBytes (s.memRead (BitVec.ofNat 12 a.toNat)) (s.memRead (BitVec.ofNat 12 (a.toNat + 1)))

/-- The fetch phase (R64, R124): the range check replaces any reduction of the address. -/
def State.fetch (s : State) : Except Fault Word :=
  if Config.pcMax < s.pc.toNat then .error (.fetchOutOfRange s.pc) else .ok (s.wordAt s.pc)

end Sys2Proof.Machine
end

