-- ==== Sys2Proof/Machine/Operands.lean ====
section
/-!
DEFINITION. The operand forms that are more than a field of the word (spec/30_encoding.md R93): the shift source, the key
a register selects, the digit a register selects, the target of an indexed jump, and the run of registers of a dump.
-/

namespace Sys2Proof.Machine

/-- The value `SHR` and `SHL` shift: `(SHIFT_SRC = Y) ? V[y] : V[x]` (R169, R171, R175). -/
def State.shiftOperand (s : State) (src : ShiftSrc) (x y : Nibble) : Byte :=
  match src with
  | .X => s.reg x
  | .Y => s.reg y

/-- The low nibble of `V[x]`: the key `SKP` and `SKNP` test, `V[x] & 0x0F` (R225, D16). -/
def State.keyOperand (s : State) (x : Nibble) : Nibble := (s.reg x).setWidth 4

/-- The address of the glyph of the digit `V[x] & 0x0F`: five times it (R193, D15). -/
def State.glyphOperand (s : State) (x : Nibble) : Word := ((s.reg x &&& 0x0F).setWidth 16) * 5

/-- The target of `JP V0, addr`: `nnn + V[0]` on 16 bits, unmasked (R144, D29). -/
def State.offsetTarget (s : State) (nnn : Addr) : Word := Addr.toWord nnn + Byte.toWord (s.reg 0)

/-- The bytes `V[0]` to `V[x]` (R195). -/
def State.regRun (s : State) (x : Nibble) : List Byte := s.V.toList.take (x.toNat + 1)

/-- The three decimal digits of a byte, hundreds first (R194). -/
def bcdDigits (b : Byte) : List Byte :=
  [BitVec.ofNat 8 (b.toNat / 100), BitVec.ofNat 8 (b.toNat / 10 % 10), BitVec.ofNat 8 (b.toNat % 10)]

end Sys2Proof.Machine
end

