-- ==== Sys2Proof/Machine/Flags.lean ====
section
/-!
DEFINITION. Every flag computation the spec gives (spec/10_state.md R44): carry, not-borrow, shifted-out bit, collision,
and the one way an instruction delivers its result and its flag (spec/42_alu.md R160).
-/

namespace Sys2Proof.Machine

/-- Carry out of bit 7: the exact sum is above 255 (R167). -/
def carryOf (a b : Byte) : Bool := decide (255 < a.toNat + b.toNat)

/-- Not borrow: minuend at least the subtrahend (R168, R170). -/
def notBorrowOf (minuend subtrahend : Byte) : Bool := decide (subtrahend.toNat ≤ minuend.toNat)

/-- The bit `SHR` shifts out: bit 0 before the shift (R169). -/
def shiftedOutRight (b : Byte) : Bool := b.getLsbD 0

/-- The bit `SHL` shifts out: bit 7 before the shift (R171). -/
def shiftedOutLeft (b : Byte) : Bool := b.getLsbD 7

/-- `VF <- f`, 0 or 1 (R160d). -/
def State.setFlag (s : State) (f : Bool) : State := s.setReg flagReg (flagByte f)

/-- `V[x] <- b`, then the flag LAST, so that for x = 0xF the register ends holding the flag (R160c, D8; log 13). -/
def State.setResult (s : State) (x : Nibble) (b : Byte) (f : Bool) : State := (s.setReg x b).setFlag f

/-- The two results of drawing: the display, and whether a pixel has gone from 1 to 0 so far (R212). -/
abbrev Drawing := Display × Bool

/-- One sprite pixel: column `c` of row `r`, whose byte is `b`. A 0 bit does nothing; a 1 bit flips its cell, and is a hit if
the cell was 1. Bit 7 is the leftmost pixel, and both sums wrap (R212, C2, D20; log 20). -/
def drawPixel (x0 y0 r : Nat) (b : Byte) (d : Drawing) (c : Nat) : Drawing :=
  if b.getLsbD (7 - c) then
    let i := cellIndex ((x0 + c) % 64) ((y0 + r) % 32)
    (d.1 ^^^ BitVec.twoPow 2048 i, d.2 || d.1.getLsbD i)
  else d

/-- One sprite row of eight pixels, from the left (R212). -/
def drawRow (x0 y0 : Nat) (d : Drawing) (row : Byte × Nat) : Drawing :=
  (List.range 8).foldl (drawPixel x0 y0 row.2 row.1) d

/-- All rows of a sprite, from the top, onto a display: the new display and the COLLISION flag "for the whole operation"
(R212, R213). -/
def drawSprite (disp : Display) (x0 y0 : Nat) (rows : List Byte) : Drawing :=
  rows.zipIdx.foldl (drawRow x0 y0) (disp, false)

end Sys2Proof.Machine
end

