-- ==== Sys2Proof/Machine/Alu.lean ====
section
/-!
DEFINITION. The ALU (spec/42_alu.md): loads, arithmetic, logic, shifts, random. Every source is read before any register is
written (R160b); each ends with the default advance and raises no fault.
-/

namespace Sys2Proof.Machine

/-- `LD Vx, byte` (R161). -/
def execLdByte (x : Nibble) (kk : Byte) (s : State) : Result := .next (s.setReg x kk).advance

/-- `ADD Vx, byte` (R162): no flag (D10; log 14). -/
def execAddByte (x : Nibble) (kk : Byte) (s : State) : Result := .next (s.setReg x (s.reg x + kk)).advance

/-- `LD Vx, Vy` (R163). -/
def execLdReg (x y : Nibble) (s : State) : Result := .next (s.setReg x (s.reg y)).advance

/-- `OR Vx, Vy` (R164): no flag (D9; log 14). -/
def execOrReg (x y : Nibble) (s : State) : Result := .next (s.setReg x (s.reg x ||| s.reg y)).advance

/-- `AND Vx, Vy` (R165): no flag (D9; log 14). -/
def execAndReg (x y : Nibble) (s : State) : Result := .next (s.setReg x (s.reg x &&& s.reg y)).advance

/-- `XOR Vx, Vy` (R166): no flag (D9; log 14). -/
def execXorReg (x y : Nibble) (s : State) : Result := .next (s.setReg x (s.reg x ^^^ s.reg y)).advance

/-- `ADD Vx, Vy` (R167). -/
def execAddReg (x y : Nibble) (s : State) : Result :=
  .next (s.setResult x (s.reg x + s.reg y) (carryOf (s.reg x) (s.reg y))).advance

/-- `SUB Vx, Vy` (R168). -/
def execSubReg (x y : Nibble) (s : State) : Result :=
  .next (s.setResult x (s.reg x - s.reg y) (notBorrowOf (s.reg x) (s.reg y))).advance

/-- The operation of `SHR` for a value of `SHIFT_SRC` (R169). -/
def shiftRight (src : ShiftSrc) (x y : Nibble) (s : State) : State :=
  let v := s.shiftOperand src x y
  (s.setResult x (v >>> 1) (shiftedOutRight v)).advance

/-- `SHR Vx {, Vy}` (R169), whichever value `SHIFT_SRC` has (R175; log 2). -/
def execShr (x y : Nibble) (s : State) : Result := .next (shiftRight Config.shiftSrc x y s)

/-- `SUBN Vx, Vy` (R170): the minuend is `V[y]`. -/
def execSubn (x y : Nibble) (s : State) : Result :=
  .next (s.setResult x (s.reg y - s.reg x) (notBorrowOf (s.reg y) (s.reg x))).advance

/-- The operation of `SHL` for a value of `SHIFT_SRC` (R171). -/
def shiftLeft (src : ShiftSrc) (x y : Nibble) (s : State) : State :=
  let v := s.shiftOperand src x y
  (s.setResult x (v <<< 1) (shiftedOutLeft v)).advance

/-- `SHL Vx {, Vy}` (R171), whichever value `SHIFT_SRC` has (R175; log 2). -/
def execShl (x y : Nibble) (s : State) : Result := .next (shiftLeft Config.shiftSrc x y s)

/-- `RND Vx, byte` (R172): a free byte under the mask. -/
def execRnd (x : Nibble) (kk : Byte) (s : State) : Result :=
  .next (s.draw.2.setReg x (s.draw.1 &&& kk)).advance

end Sys2Proof.Machine
end

