-- ==== Sys2Proof/Machine/ControlFlow.lean ====
section
/-!
DEFINITION. Control transfer (spec/41_control_flow.md): RET, JP, CALL, JP V0, and the register skips.
None writes a general register, memory, the display, a timer or a key (R140).
-/

namespace Sys2Proof.Machine

/-- `RET` (R141): `pc <- trunc_16(Pop() + 2)`, since the entry is the call-site address (C1). -/
def execRet (s : State) : Result :=
  match s.pop with
  | .ok (a, t) => .next (t.setPc (a + 2))
  | .error f => raise f s

/-- `JP addr` (R142). -/
def execJp (nnn : Addr) (s : State) : Result := .next (s.setPc (Addr.toWord nnn))

/-- `CALL addr` (R143): it pushes its own address. -/
def execCall (nnn : Addr) (s : State) : Result :=
  match s.push s.pc with
  | .ok t => .next (t.setPc (Addr.toWord nnn))
  | .error f => raise f s

/-- `JP V0, addr` (R144). -/
def execJpV0 (nnn : Addr) (s : State) : Result := .next (s.setPc (s.offsetTarget nnn))

/-- `SE Vx, byte` (R145). -/
def execSeByte (x : Nibble) (kk : Byte) (s : State) : Result := .next (s.skipIf (decide (s.reg x = kk)))

/-- `SNE Vx, byte` (R146). -/
def execSneByte (x : Nibble) (kk : Byte) (s : State) : Result := .next (s.skipIf (decide (s.reg x ≠ kk)))

/-- `SE Vx, Vy` (R147). -/
def execSeReg (x y : Nibble) (s : State) : Result := .next (s.skipIf (decide (s.reg x = s.reg y)))

/-- `SNE Vx, Vy` (R148). -/
def execSneReg (x y : Nibble) (s : State) : Result := .next (s.skipIf (decide (s.reg x ≠ s.reg y)))

end Sys2Proof.Machine
end

