-- ==== Sys2Proof/Machine/DisplayOps.lean ====
section
/-!
DEFINITION. The display instructions (spec/44_display.md): both set `redraw_pending`, neither writes memory (R210).
-/

namespace Sys2Proof.Machine

/-- `CLS` (R211). -/
def execCls (s : State) : Result := .next (s.showDisp 0).advance

/-- `DRW Vx, Vy, nibble` (R212): coordinates are read before `VF` is written; the rows are the bytes at `EA(0)` to
`EA(n-1)`, none when n = 0; the collision flag is written last. -/
def execDrw (x y n : Nibble) (s : State) : Result :=
  let d := drawSprite s.disp (s.reg x).toNat (s.reg y).toNat (s.readRun n.toNat)
  .next ((s.showDisp d.1).setFlag d.2).advance

end Sys2Proof.Machine
end

