-- ==== Sys2Proof/Machine/IndexMemory.lean ====
section
/-!
DEFINITION. Index register, loads and stores (spec/43_index_memory.md). Memory is reached through `EA(k)` only, and only the
three loads of `I` change `I` (R190). None writes `VF` as a flag.
-/

namespace Sys2Proof.Machine

/-- `LD I, addr` (R191). -/
def execLdI (nnn : Addr) (s : State) : Result := .next (s.setI (Addr.toWord nnn)).advance

/-- `ADD I, Vx` (R192): 16 bits, no flag (D10; log 14). -/
def execAddI (x : Nibble) (s : State) : Result := .next (s.setI (s.I + Byte.toWord (s.reg x))).advance

/-- `LD F, Vx` (R193). -/
def execLdF (x : Nibble) (s : State) : Result := .next (s.setI (s.glyphOperand x)).advance

/-- A store instruction under a policy: its bytes at `EA(0)` onward and the default advance, or the fault with nothing
changed (R67, R194, R195, R257). -/
def storeBytes (policy : LowStorePolicy) (bytes : List Byte) (s : State) : Result :=
  match s.store policy bytes with
  | .ok t => .next t.advance
  | .error f => raise f s

/-- `LD B, Vx` (R194). -/
def execLdB (x : Nibble) (s : State) : Result := storeBytes Config.lowStorePolicy (bcdDigits (s.reg x)) s

/-- `LD [I], Vx` (R195). -/
def execLdMemVx (x : Nibble) (s : State) : Result := storeBytes Config.lowStorePolicy (s.regRun x) s

/-- `LD Vx, [I]` (R196): every address is readable. -/
def execLdVxMem (x : Nibble) (s : State) : Result := .next (s.loadRegs 0 (s.readRun (x.toNat + 1))).advance

end Sys2Proof.Machine
end

