-- ==== Sys2Proof/Machine/KeypadTimer.lean ====
section
/-!
DEFINITION. Keypad and timer instructions (spec/45_keypad_timer_ops.md). None writes `VF` as a flag, touches memory or
raises a fault.
-/

namespace Sys2Proof.Machine

/-- `SKP Vx` (R226): a pressed key is consumed, and skips. -/
def execSkp (x : Nibble) (s : State) : Result :=
  let k := s.keyOperand x
  if s.keyDown k then .next ((s.putKey k false).skipIf true) else .next (s.skipIf false)

/-- `SKNP Vx` (R227): a pressed key is consumed, and does not skip (D17; log 18). -/
def execSknp (x : Nibble) (s : State) : Result :=
  let k := s.keyOperand x
  if s.keyDown k then .next ((s.putKey k false).skipIf false) else .next (s.skipIf true)

/-- `LD Vx, DT` (R229). -/
def execLdVxDt (x : Nibble) (s : State) : Result := .next (s.setReg x s.delay).advance

/-- `LD Vx, K`, the step that fetches it (R228): `pc` is not advanced; later steps run the wait phase. -/
def execLdVxK (x : Nibble) (s : State) : Result := .next (s.startWait x)

/-- `LD DT, Vx` (R230). -/
def execLdDtVx (x : Nibble) (s : State) : Result := .next (s.setDelay (s.reg x)).advance

/-- `LD ST, Vx` (R231). -/
def execLdStVx (x : Nibble) (s : State) : Result := .next (s.setSound (s.reg x)).advance

end Sys2Proof.Machine
end

