-- ==== Sys2Proof/Machine/Cycle.lean ====
section
/-!
DEFINITION. The dispatcher's step, phase by phase (spec/40_dispatcher_step.md R120), for either value of `TIMER_FIRST`, and
the bytes a fetch reads. Machine/Step.lean only calls these.
-/

namespace Sys2Proof.Machine

/-- Phases 4 to 6 (R124 to R126): fetch, decode, execute. A failing fetch or decode raises its fault, in this order (R258). -/
def State.runInstr (s : State) : Result :=
  match s.fetch with
  | .error f => raise f s
  | .ok op =>
    match decodeWord op with
    | .error _ => raise (.unknownOpcode s.pc op) s
    | .ok i => exec i s

/-- With `TIMER_FIRST = false`: the timer phase after an instruction, skipped by a step that faulted (R122). -/
def thenTimers : Result → Result
  | .next t => if t.runState = .halted then .next t else .next t.timerPhase
  | r => r

/-- One step (R120) for a value of `TIMER_FIRST` (R122). While `Halted` nothing changes (R121, D3; log 8). -/
def State.cycle (timerFirst : Bool) (s : State) : Result :=
  match s.runState with
  | .halted => .next s
  | .waitingForKey =>
    if timerFirst then .next s.timerPhase.waitPhase else .next s.waitPhase.timerPhase
  | .running =>
    if timerFirst then s.timerPhase.runInstr else thenTimers s.runInstr

/-- A word placed where the next fetch reads it, high byte at `pc` (R64, R65); nothing else changes (log 24). -/
def State.placeWord (s : State) (w : Word) : State :=
  (s.memWrite (BitVec.ofNat 12 s.pc.toNat) (hiByte w)).memWrite (BitVec.ofNat 12 (s.pc.toNat + 1)) (loByte w)

end Sys2Proof.Machine
end

