-- ==== Sys2Proof/Machine/Step.lean ====
section
/-!
DEFINITION. The step of the machine (spec/40_dispatcher_step.md R120), with `TIMER_FIRST` at the spec's value.
-/

namespace Sys2Proof.Machine

/-- `step()` (R120). -/
def step : State → Host.Outcome State Fault Refusal := State.cycle Config.timerFirst

/-- The state with the opcode-table word `w` of `nbits` bits stored where `step` fetches its next instruction. -/
def State.withFetchWord (s : State) (nbits w : Nat) : State := s.placeWord (tableWord nbits w)

end Sys2Proof.Machine
end

