-- ==== Sys2Proof/Machine/HostOps.lean ====
section
/-!
DEFINITION. What the host and the tick source do between steps (spec/60_exceptions.md R271, R274, R277, R279 to R281,
spec/70_reset_and_hazards.md R300, R303, R304): one total function each.
-/

namespace Sys2Proof.Machine

/-- The tick source's only action (R271). -/
def State.tick (s : State) : State := { s with tickPending := true }

/-- Host `set_key(k, p)` (R277). -/
def State.setKey (s : State) (k : Nibble) (p : Bool) : State := s.putKey k p

/-- Host `get_display()`: the 2048 cells in row-major order (R279, R29); the state does not change. -/
def State.getDisplay (s : State) : List Bool := (List.range 2048).map s.disp.getLsbD

/-- Host `take_redraw()` (R280): the flag, then cleared. -/
def State.takeRedraw (s : State) : Bool × State := (s.redrawPending, { s with redrawPending := false })

/-- Host `poll_beep()` (R274): the event, then cleared. -/
def State.pollBeep (s : State) : Bool × State := (s.beepPending, { s with beepPending := false })

/-- Host `reset()` (R300): every piece of the spec's state to its reset value. The model's own counter goes on, so that the
draws after a reset are not the draws before it (R176; log 1). -/
def State.hostReset (s : State) : State := { State.reset with draws := s.draws }

/-- `load_rom`'s failure (R261, R304); it is not a fault of the dispatcher. -/
inductive LoadError where
  /-- The ROM is longer than 3584 bytes. -/
  | romTooLarge
  deriving DecidableEq, Repr

/-- The listed cells of a run of bytes from an address up: those that differ from their reset contents. -/
def Memory.cellsFrom : Nat → List Byte → Memory
  | _, [] => []
  | a, b :: bs => if b = Memory.initial a then Memory.cellsFrom (a + 1) bs else (a, b) :: Memory.cellsFrom (a + 1) bs

/-- The bytes of the whole program region: the ROM, then 0x00 to its end (R303, D23). -/
def programBytes (bytes : List Byte) : List Byte := bytes ++ List.replicate (romMax - bytes.length) 0x00

/-- Host `load_rom(bytes)` (R303, R304): the program region and `pc`, nothing else; a ROM that is too large changes nothing.
It does not leave `Halted` or `WaitingForKey` (R305). -/
def State.loadRom (s : State) (bytes : List Byte) : Except LoadError State :=
  if romWellFormed bytes then
    .ok { s with
      mem := s.mem.filter (fun c => decide (c.1 < Config.progBase)) ++
        Memory.cellsFrom Config.progBase (programBytes bytes)
      pc := BitVec.ofNat 16 Config.progBase }
  else .error .romTooLarge

end Sys2Proof.Machine
end

