-- ==== Sys2Proof/Machine/Agents.lean ====
section
/-!
DEFINITION. The three agents and their atomic, totally ordered actions (spec/00_scope.md R5, R6; spec/60_exceptions.md
R281): a list of actions is one interleaving of dispatcher, host and tick source (spec/70_reset_and_hazards.md R321).
-/

namespace Sys2Proof.Machine

/-- One action of one agent. The operations that only read (`get_display`) leave the state as it is. -/
inductive Action where
  /-- The dispatcher performs one step (R120). -/
  | step
  /-- The tick source sets its latch (R271). -/
  | tick
  /-- Host `reset()` (R300). -/
  | reset
  /-- Host `load_rom(bytes)` (R303, R304). -/
  | loadRom (bytes : List Byte)
  /-- Host `set_key(k, p)` (R277). -/
  | setKey (k : Nibble) (p : Bool)
  /-- Host `get_display()` (R279). -/
  | getDisplay
  /-- Host `take_redraw()` (R280). -/
  | takeRedraw
  /-- Host `poll_beep()` (R274). -/
  | pollBeep
  deriving DecidableEq, Repr

/-- The state after an action; `load_rom` of a ROM that is too large leaves it as it is (R304). -/
def act (a : Action) (s : State) : Host.Outcome State Fault Refusal :=
  match a with
  | .step => Sys2Proof.Machine.step s
  | .tick => .next s.tick
  | .reset => .next s.hostReset
  | .loadRom bytes =>
    match s.loadRom bytes with
    | .ok t => .next t
    | .error _ => .next s
  | .setKey k p => .next (s.setKey k p)
  | .getDisplay => .next s
  | .takeRedraw => .next s.takeRedraw.2
  | .pollBeep => .next s.pollBeep.2

/-- The state after an interleaving of actions (R6, R321). -/
def runActions : List Action → State → Host.Outcome State Fault Refusal
  | [], s => .next s
  | a :: as, s =>
    match act a s with
    | .next t => runActions as t
    | r => r

end Sys2Proof.Machine
end

