-- ==== Sys2Proof/Machine/Trace.lean ====
section
/-!
DEFINITION. What the host is given back by a step (spec/40_dispatcher_step.md R128, spec/60_exceptions.md R284): an output
only; no rule reads it. The label and the string of `CycleResult` are not given by the spec and are left out (log 12).
-/

namespace Sys2Proof.Machine

/-- The fields of `CycleResult` whose content the spec gives (R284). -/
structure Trace where
  /-- The fetched word. -/
  opcode : Word
  /-- `pc` at the start of the step. -/
  pcBefore : Word
  /-- `pc` at its end. -/
  pcAfter : Word
  /-- `V[0..15]` at the start of the step. -/
  vBefore : Vector Byte 16
  /-- `V[0..15]` at its end. -/
  vAfter : Vector Byte 16
  deriving DecidableEq, Repr

/-- The result of a step (R128). -/
inductive StepResult where
  /-- `Ok(trace)`; the trace of a step that fetched nothing is not given by the spec (N15) and is `none`. -/
  | ok (trace : Option Trace)
  /-- `Err(fault)`: the fault this step raised, or the one that halted the dispatcher before it. -/
  | err (fault : Fault)
  deriving DecidableEq, Repr

/-- The result of a step from `s` to `t` (R128): `Err` of the halt cause exactly when `t` is halted (R256, R121). -/
def resultOf (s t : State) : StepResult :=
  match t.runState, t.haltCause with
  | .halted, some f => .err f
  | _, _ =>
    match s.runState with
    | .running =>
      .ok (some { opcode := s.wordAt s.pc, pcBefore := s.pc, pcAfter := t.pc, vBefore := s.V, vAfter := t.V })
    | _ => .ok none

/-- The result of the step at `s`; `none` if the machine answered no next state, which it always does. -/
def stepResult (s : State) : Option StepResult :=
  match step s with
  | .next t => some (resultOf s t)
  | _ => none

end Sys2Proof.Machine
end

