-- ==== Sys2Proof/Safety.lean ====
section
/-!
DEFINITION. What holds in every reachable state (spec/10_state.md R49), and what a safe run is. R49(a), `sp <= 16`, and
R49(b), cells of 0 or 1, hold of every `State` by the types of its fields.
-/

namespace Sys2Proof.Machine

/-- R49(c): there is a halt cause exactly while `Halted`. -/
def State.CauseMatches (s : State) : Prop := s.haltCause.isSome = true ↔ s.runState = .halted

/-- R49(d): every live stack entry is a valid program counter. -/
def State.LiveEntriesValid (s : State) : Prop :=
  ∀ k : Fin 16, k.val < s.sp.val → (s.stack[k.val]).toNat ≤ Config.pcMax

/-- R49(e): every byte below 0x200 is as reset left it (under `LOW_STORE_POLICY = fault`). -/
def State.LowRegionIntact (s : State) : Prop :=
  ∀ a : Addr, a.toNat < Config.progBase → s.memRead a = Memory.initial a.toNat

/-- The invariant of the machine: R49(c), (d), (e), and the canonical form of its memory. -/
structure State.Inv (s : State) : Prop where
  cause : s.CauseMatches
  entries : s.LiveEntriesValid
  low : s.LowRegionIntact
  mem : Memory.wf s.mem = true

/-- A state no fault has halted: "a `Halted` state is never a successful end" (R322). -/
def State.Safe (s : State) : Prop := s.runState ≠ .halted

/-- The end of a run, as R322 defines it: running, with a jump to itself at `pc`. -/
def State.AtEnd (s : State) : Prop :=
  s.runState = .running ∧ s.pc.toNat ≤ Config.pcMax ∧ s.wordAt s.pc = (0x1000 ||| s.pc)

end Sys2Proof.Machine
end

