-- ==== Sys2Proof/Certificates/Slice0/Obligations.lean ====
section
/-!
DEFINITION. The statements about the model, each from a rule or a section of spec/. An instruction's statement gives its word,
its next state and its frame: `t = { s with V := t.V, pc := … }` says that every field not named is unchanged.
Where a clause is the spec's own decision (`D<n>` of spec/92_eei_decisions.md) or the model's choice, the docstring says so.
-/

open Sys2Proof Sys2Proof.Machine

/-! ### Helpers of the statements -/

/-- A row of the opcode map (R100): its mask and match columns, and the instruction with its fields. -/
structure Sys2Proof.OpcodeRow where
  mask : Word
  pattern : Word
  instr : Word → Instr

/-- The opcode map, row by row as R100 prints it; fields by R92. -/
def Sys2Proof.opcodeMap : List OpcodeRow :=
  let x := fun w : Word => (w.extractLsb' 8 4 : Nibble)
  let y := fun w : Word => (w.extractLsb' 4 4 : Nibble)
  let n := fun w : Word => (w.extractLsb' 0 4 : Nibble)
  let kk := fun w : Word => (w.extractLsb' 0 8 : Byte)
  let nnn := fun w : Word => (w.extractLsb' 0 12 : Addr)
  [⟨0xFFFF, 0x00E0, fun _ => .cls⟩,
   ⟨0xFFFF, 0x00EE, fun _ => .ret⟩,
   ⟨0xF000, 0x1000, fun w => .jp (nnn w)⟩,
   ⟨0xF000, 0x2000, fun w => .call (nnn w)⟩,
   ⟨0xF000, 0x3000, fun w => .seByte (x w) (kk w)⟩,
   ⟨0xF000, 0x4000, fun w => .sneByte (x w) (kk w)⟩,
   ⟨0xF000, 0x5000, fun w => .seReg (x w) (y w)⟩,
   ⟨0xF000, 0x6000, fun w => .ldByte (x w) (kk w)⟩,
   ⟨0xF000, 0x7000, fun w => .addByte (x w) (kk w)⟩] ++
  [⟨0xF00F, 0x8000, fun w => .ldReg (x w) (y w)⟩,
   ⟨0xF00F, 0x8001, fun w => .orReg (x w) (y w)⟩,
   ⟨0xF00F, 0x8002, fun w => .andReg (x w) (y w)⟩,
   ⟨0xF00F, 0x8003, fun w => .xorReg (x w) (y w)⟩,
   ⟨0xF00F, 0x8004, fun w => .addReg (x w) (y w)⟩,
   ⟨0xF00F, 0x8005, fun w => .subReg (x w) (y w)⟩,
   ⟨0xF00F, 0x8006, fun w => .shr (x w) (y w)⟩,
   ⟨0xF00F, 0x8007, fun w => .subn (x w) (y w)⟩,
   ⟨0xF00F, 0x800E, fun w => .shl (x w) (y w)⟩] ++
  [⟨0xF000, 0x9000, fun w => .sneReg (x w) (y w)⟩,
   ⟨0xF000, 0xA000, fun w => .ldI (nnn w)⟩,
   ⟨0xF000, 0xB000, fun w => .jpV0 (nnn w)⟩,
   ⟨0xF000, 0xC000, fun w => .rnd (x w) (kk w)⟩,
   ⟨0xF000, 0xD000, fun w => .drw (x w) (y w) (n w)⟩,
   ⟨0xF0FF, 0xE09E, fun w => .skp (x w)⟩,
   ⟨0xF0FF, 0xE0A1, fun w => .sknp (x w)⟩] ++
  [⟨0xF0FF, 0xF007, fun w => .ldVxDt (x w)⟩,
   ⟨0xF0FF, 0xF00A, fun w => .ldVxK (x w)⟩,
   ⟨0xF0FF, 0xF015, fun w => .ldDtVx (x w)⟩,
   ⟨0xF0FF, 0xF018, fun w => .ldStVx (x w)⟩,
   ⟨0xF0FF, 0xF01E, fun w => .addI (x w)⟩,
   ⟨0xF0FF, 0xF029, fun w => .ldF (x w)⟩,
   ⟨0xF0FF, 0xF033, fun w => .ldB (x w)⟩,
   ⟨0xF0FF, 0xF055, fun w => .ldMemVx (x w)⟩,
   ⟨0xF0FF, 0xF065, fun w => .ldVxMem (x w)⟩]

/-- `t` is `s` with, at most, other registers and the default advance of `pc` (R126). -/
def Sys2Proof.RegsAndAdvance (s t : State) : Prop := t = { s with V := t.V, pc := s.pc + 2 }

/-- Pixel (px, py) lies under a 1 bit of the sprite of `DRW Vx, Vy, n` in state `s`: bit `7 - c` of the byte of row `r`
lands on it, both sums wrapping (R212). -/
def Sys2Proof.UnderSprite (s : State) (x y n : Nibble) (px py : Nat) : Prop :=
  ∃ r < n.toNat, ∃ c < 8, (s.memRead (s.ea r)).getLsbD (7 - c) = true ∧
    px = ((s.reg x).toNat + c) % 64 ∧ py = ((s.reg y).toNat + r) % 32

/-! ### Reset, step and run states -/

/-- What reset leaves (10_state.md section 13, R48). The values of `pc`, of memory outside the font, of the keys,
`waitReg`, `haltCause` and the three latches are the spec's decision D22 (log 5), the font bytes D24 (log 6). The host's
`reset()` leaves the same from every state (R300); the counter of draws, which it keeps, is the model's choice (log 1). -/
def Obligations.ResetLeavesTheSpecsValues : Prop :=
  let s := State.reset
  (∀ r, s.reg r = 0) ∧ s.I = 0 ∧ s.pc = 0x0200 ∧
  (∀ d < 16, ∀ r < 5, some (s.memRead (BitVec.ofNat 12 (5 * d + r))) = Config.font[5 * d + r]?) ∧
  (∀ a : Addr, 0x050 ≤ a.toNat → s.memRead a = 0x00) ∧
  (∀ px < 64, ∀ py < 32, s.pixel px py = false) ∧
  (∀ k : Fin 16, s.stack[k.val] = 0) ∧ s.sp = 0 ∧ s.delay = 0 ∧ s.sound = 0 ∧
  (∀ k, s.keyDown k = false) ∧ s.runState = .running ∧ s.waitReg = 0 ∧ s.haltCause = none ∧
  s.tickPending = false ∧ s.redrawPending = false ∧ s.beepPending = false ∧
  ∀ u : State, act .reset u = .next { State.reset with draws := u.draws }

/-- Reset meets the invariant of R49. -/
def Obligations.ResetMeetsTheInvariant : Prop := State.reset.Inv

/-- A step in `Running` whose two bytes at `pc`, high byte first, decode to a well-formed instruction runs exactly that
instruction, after the timer phase (40_dispatcher_step.md section 1). The place of the timer phase is the spec's decision D2
(log 3), the range check D5. -/
def Obligations.StepRunsTheDecodedInstruction : Prop :=
  ∀ (s : State) (i : Instr), s.runState = .running → s.pc.toNat ≤ 0xFFE → i.wellFormed = true →
    decodeWord (s.memRead (BitVec.ofNat 12 s.pc.toNat) ++ s.memRead (BitVec.ofNat 12 (s.pc.toNat + 1))) = .ok i →
    step s = exec i s.timerPhase

/-- A fetch above 0xFFE raises `FetchOutOfRange(pc)`, and the step changes nothing else after its timer phase. The fault is
the spec's decision D5 (log 23), its precision D4 (log 21); that the step has run its timer phase is `TIMER_FIRST = true`,
the decision D2 (log 3), since R122 lets a faulting step skip it with `false`. -/
def Obligations.FetchOutOfRangeHalts : Prop :=
  ∀ s : State, s.runState = .running → 0xFFE < s.pc.toNat →
    step s = .next { s.timerPhase with runState := .halted, haltCause := some (.fetchOutOfRange s.pc) }

/-- R251: a fetched word that matches no row of the opcode map raises `UnknownOpcode` with its address and itself. -/
def Obligations.UnrecognisedWordHalts : Prop :=
  ∀ (s : State) (w : Word), s.runState = .running → s.pc.toNat ≤ 0xFFE →
    s.memRead (BitVec.ofNat 12 s.pc.toNat) ++ s.memRead (BitVec.ofNat 12 (s.pc.toNat + 1)) = w →
    (∀ row ∈ opcodeMap, w &&& row.mask ≠ row.pattern) →
    ∃ t, step s = .next t ∧ t.runState = .halted ∧ t.haltCause = some (.unknownOpcode s.pc w) ∧
      stepResult s = some (.err (.unknownOpcode s.pc w))

/-- `Halted` is terminal (60_exceptions.md section 2): of the agents' actions `load_rom` does not leave it, nor does any
other, but `reset` does. That a step in it changes nothing and gives the same error again is the spec's decision D3 (log 8). -/
def Obligations.HaltedIsLeftByResetOnly : Prop :=
  ∀ (s : State) (f : Fault), s.runState = .halted → s.haltCause = some f →
    step s = .next s ∧ stepResult s = some (.err f) ∧
    (∀ a : Action, a ≠ .reset → ∃ t, act a s = .next t ∧ t.runState = .halted ∧ t.haltCause = some f) ∧
    ∃ t, act .reset s = .next t ∧ t.runState = .running ∧ t.haltCause = none

/-- The wait phase (40_dispatcher_step.md section 1). With no key pressed the step only runs the timer phase; else the least
pressed key `k` goes to the waiting register and is consumed. The least index and the latched register are the spec's
decision D18 (log 19), the timer phase before it D2. -/
def Obligations.WaitingStepTakesTheLeastKey : Prop :=
  ∀ s : State, s.runState = .waitingForKey →
    ((∀ k, s.keyDown k = false) → step s = .next s.timerPhase) ∧
    ∀ k, s.keyDown k = true → (∀ j < k, s.keyDown j = false) →
      ∃ t, step s = .next t ∧
        t = { s.timerPhase with V := t.V, key := t.key, pc := s.pc + 2, runState := .running } ∧
        (∀ r, t.reg r = if r = s.waitReg then BitVec.ofNat 8 k.toNat else s.reg r) ∧
        ∀ j, t.keyDown j = if j = k then false else s.keyDown j

/-- R272: the timer phase. Natural-number subtraction stops at 0. -/
def Obligations.TimerPhaseCountsDown : Prop :=
  ∀ s : State,
    (s.tickPending = false → s.timerPhase = s) ∧
    (s.tickPending = true → ∃ t, s.timerPhase = t ∧
      t = { s with tickPending := false, delay := t.delay, sound := t.sound, beepPending := t.beepPending } ∧
      t.delay.toNat = s.delay.toNat - 1 ∧ t.sound.toNat = s.sound.toNat - 1 ∧
      t.beepPending = if s.sound.toNat = 1 then true else s.beepPending)

/-- Every step answers a next state: a fault is a next state that is `Halted` (R256; log 8), and no instruction is refused. -/
def Obligations.EveryStepAnswersANextState : Prop := ∀ s : State, ∃ t, step s = .next t

/-- R49: every step keeps the invariant, from every state that meets it. Clause (e) rests on the policy `fault`, the spec's
decision D13 (log 4). -/
def Obligations.EveryStepKeepsTheInvariant : Prop :=
  ∀ s t : State, s.Inv → step s = .next t → t.Inv

/-- R49 over every interleaving of dispatcher, host and tick source (R6, R321), `load_rom` at any time included (R305).
Clause (e) holds under the policy `fault`, the spec's decision D13 (log 4); that the agents act by whole actions between
steps is D1 and D27 (log 9). -/
def Obligations.EveryInterleavingKeepsTheInvariant : Prop :=
  ∀ (as : List Action) (s t : State), s.Inv → runActions as s = .next t → t.Inv

/-- Faults are precise: `Halted` is reached from `Running` only, and the halting step leaves, but for its timer phase,
everything as it was except `runState` and `haltCause` (R257, R130; the spec's decisions D4, D14, log 21). That its timer
phase stays done is `TIMER_FIRST = true`, the decision D2 (log 3). -/
def Obligations.FaultsArePrecise : Prop :=
  ∀ s t : State, s.runState ≠ .halted → step s = .next t → t.runState = .halted →
    s.runState = .running ∧ ∃ f, t = { s.timerPhase with runState := .halted, haltCause := some f }

/-- Which fault a step raises, and when (60_exceptions.md sections 1 and 2): each cause holds of the word at `pc` and the
state, so no step could have raised two. `FetchOutOfRange` is the spec's decision D5 (log 23); `StoreProtected`, at the
lowest offset of the run below 0x200 (R255), is D13 (log 4). -/
def Obligations.FaultCausesAreExact : Prop :=
  ∀ (s t : State) (f : Fault), s.runState ≠ .halted → step s = .next t → t.runState = .halted → t.haltCause = some f →
    match f with
    | .fetchOutOfRange p => p = s.pc ∧ 0xFFE < s.pc.toNat
    | .unknownOpcode p w =>
      p = s.pc ∧ s.pc.toNat ≤ 0xFFE ∧ w = s.wordAt s.pc ∧ ∀ row ∈ opcodeMap, w &&& row.mask ≠ row.pattern
    | .stackOverflow => s.pc.toNat ≤ 0xFFE ∧ s.sp.val = 16 ∧ ∃ nnn, decodeWord (s.wordAt s.pc) = .ok (.call nnn)
    | .stackUnderflow => s.pc.toNat ≤ 0xFFE ∧ s.sp.val = 0 ∧ decodeWord (s.wordAt s.pc) = .ok .ret
    | .storeProtected a =>
      s.pc.toNat ≤ 0xFFE ∧ a.toNat < 0x200 ∧
        ∃ x, ∃ k, a = s.ea k ∧ (∀ j < k, 0x200 ≤ (s.ea j).toNat) ∧
          ((decodeWord (s.wordAt s.pc) = .ok (.ldB x) ∧ k < 3) ∨
            (decodeWord (s.wordAt s.pc) = .ok (.ldMemVx x) ∧ k ≤ x.toNat))

/-- The end of a run (70_reset_and_hazards.md section 7, the spec's definition D28): a jump to itself leaves everything but
the timer phase's effects as it was, and is an end again. The timer phase before it is the spec's decision D2 (log 3). -/
def Obligations.SelfJumpOnlyCountsTimers : Prop :=
  ∀ s : State, s.AtEnd → ∃ t, step s = .next t ∧ t = s.timerPhase ∧ t.AtEnd

/-! ### Encoding -/

/-- Decoding an encoded instruction gives it back, for every instruction and every operand, whatever bytes follow (R90, R91,
R94; the encodings are the spec's from general knowledge, log 22). -/
def Obligations.DecodeOfEncodeIsTheInstruction : Prop :=
  ∀ (i : Instr) (rest : List Byte), i.wellFormed = true →
    decodeWord (encode i) = .ok i ∧ decodeBytes (encodeBytes i ++ rest) = .ok (i, rest)

/-- Encoding a decoded word gives the word back, but for the nibble that groups 5 and 9 ignore, which becomes 0 (R99, derived
there; D7, log 27). -/
def Obligations.EncodeOfDecodeIsTheCanonicalWord : Prop :=
  ∀ (w : Word) (i : Instr), decodeWord w = .ok i →
    encode i = if w.extractLsb' 12 4 = 0x5#4 ∨ w.extractLsb' 12 4 = 0x9#4 then w &&& 0xFFF0 else w

/-- The opcode map (30_encoding.md section 3): a word decodes to the row whose `(op & mask) = match`, a word that matches no
row to none, and no word matches two rows. The mask of groups 5 and 9 is the spec's decision D7 (log 27). -/
def Obligations.DecodeFollowsTheOpcodeMap : Prop :=
  (∀ row ∈ opcodeMap, ∀ w : Word, w &&& row.mask = row.pattern → decodeWord w = .ok (row.instr w)) ∧
  (∀ w : Word, (∀ row ∈ opcodeMap, w &&& row.mask ≠ row.pattern) → decodeWord w = .error (.unknownOpcode w)) ∧
  opcodeMap.length = 34 ∧
  opcodeMap.Pairwise (fun a b => ∀ w : Word, w &&& a.mask = a.pattern → w &&& b.mask ≠ b.pattern)

/-- The unrecognised words, exactly (30_encoding.md section 4, derived there; D6, D7, log 27). -/
def Obligations.UnrecognisedWordsAreExactly : Prop :=
  ∀ w : Word, decodeWord w = .error (.unknownOpcode w) ↔
    (w.extractLsb' 12 4 = 0x0#4 ∧ w.extractLsb' 0 12 ∉ [0x0E0#12, 0x0EE#12]) ∨
    (w.extractLsb' 12 4 = 0x8#4 ∧ w.extractLsb' 0 4 ∈ [0x8#4, 0x9#4, 0xA#4, 0xB#4, 0xC#4, 0xD#4, 0xF#4]) ∨
    (w.extractLsb' 12 4 = 0xE#4 ∧ w.extractLsb' 0 8 ∉ [0x9E#8, 0xA1#8]) ∨
    (w.extractLsb' 12 4 = 0xF#4 ∧
      w.extractLsb' 0 8 ∉ [0x07#8, 0x0A#8, 0x15#8, 0x18#8, 0x1E#8, 0x29#8, 0x33#8, 0x55#8, 0x65#8])

/-- Sample words, one or more of each family, from the vectors E1 to E14 of 95_test_vectors.md and the examples of the
instruction rules, numbered as the opcode table numbers their bits. -/
def Obligations.SampleWordsDecode : Prop :=
  decodeTableWord 16 0x00E0 = some .cls ∧ decodeTableWord 16 0x00EE = some .ret ∧
  decodeTableWord 16 0x1ABC = some (.jp 0xABC) ∧ decodeTableWord 16 0x5AB7 = some (.seReg 0xA 0xB) ∧
  decodeTableWord 16 0x71FF = some (.addByte 1 0xFF) ∧ decodeTableWord 16 0x8ABE = some (.shl 0xA 0xB) ∧
  decodeTableWord 16 0xA2F0 = some (.ldI 0x2F0) ∧ decodeTableWord 16 0xD125 = some (.drw 1 2 5) ∧
  decodeTableWord 16 0xE3A1 = some (.sknp 3) ∧ decodeTableWord 16 0xF533 = some (.ldB 5) ∧
  decodeTableWord 16 0x0000 = none ∧ decodeTableWord 16 0x8AB8 = none ∧ decodeTableWord 16 0xE19D = none ∧
  decodeTableWord 16 0xF575 = none

/-! ### Control transfer -/

/-- R141: `RET` pops the call-site address and resumes two bytes past it; the entry keeps its value; with no entry it
underflows and nothing changes but the halt. -/
def Obligations.ReturnResumesPastTheCallSite : Prop :=
  decodeWord 0x00EE = .ok .ret ∧
  ∀ s : State,
    (∀ k : Fin 16, s.sp.val = k.val + 1 →
      exec .ret s = .next { s with sp := k.castSucc, pc := s.stack[k.val] + 2 }) ∧
    (s.sp.val = 0 → exec .ret s = .next { s with runState := .halted, haltCause := some .stackUnderflow })

/-- R143: `CALL` pushes its own address and jumps; with 16 entries in use it overflows and nothing changes but the halt. -/
def Obligations.CallPushesItsOwnAddress : Prop :=
  ∀ (s : State) (nnn : Addr), decodeWord (0x2#4 ++ nnn) = .ok (.call nnn) ∧
    (∀ k : Fin 16, s.sp.val = k.val → ∃ t, exec (.call nnn) s = .next t ∧
      t = { s with stack := t.stack, sp := k.succ, pc := nnn.setWidth 16 } ∧
      ∀ j : Fin 16, t.stack[j.val] = if j = k then s.pc else s.stack[j.val]) ∧
    (s.sp.val = 16 → exec (.call nnn) s = .next { s with runState := .halted, haltCause := some .stackOverflow })

/-- A call and its return (S8 of 95_test_vectors.md, from R141 and R143): `pc` is two past the call, and the depth of the
stack is what it was. -/
def Obligations.CallThenReturnComesBack : Prop :=
  ∀ (s : State) (nnn : Addr), s.sp.val < 16 → ∃ t u, exec (.call nnn) s = .next t ∧ exec .ret t = .next u ∧
    u = { s with stack := t.stack, pc := s.pc + 2 }

/-- The jumps (41_control_flow.md): `JP` to its address, `JP V0` to the exact sum, which stays unmasked by the spec's decision
D29 (log 16). -/
def Obligations.JumpsGoToTheirTargets : Prop :=
  ∀ (s : State) (nnn : Addr),
    decodeWord (0x1#4 ++ nnn) = .ok (.jp nnn) ∧ decodeWord (0xB#4 ++ nnn) = .ok (.jpV0 nnn) ∧
    (∃ t, exec (.jp nnn) s = .next t ∧ t = { s with pc := t.pc } ∧ t.pc.toNat = nnn.toNat) ∧
    (∃ t, exec (.jpV0 nnn) s = .next t ∧ t = { s with pc := t.pc } ∧ t.pc.toNat = nnn.toNat + (s.reg 0).toNat)

/-- R145, R146: the skips on an immediate. -/
def Obligations.SkipsOnAnImmediate : Prop :=
  ∀ (s : State) (x : Nibble) (kk : Byte),
    decodeWord (0x3#4 ++ x ++ kk) = .ok (.seByte x kk) ∧ decodeWord (0x4#4 ++ x ++ kk) = .ok (.sneByte x kk) ∧
    exec (.seByte x kk) s = .next { s with pc := if s.reg x = kk then s.pc + 4 else s.pc + 2 } ∧
    exec (.sneByte x kk) s = .next { s with pc := if s.reg x = kk then s.pc + 2 else s.pc + 4 }

/-- The skips on two registers, whatever the low nibble of the word is (41_control_flow.md; that it is ignored is derived in
R99, D7, log 27). -/
def Obligations.SkipsOnTwoRegisters : Prop :=
  ∀ (s : State) (x y z : Nibble),
    decodeWord (0x5#4 ++ x ++ y ++ z) = .ok (.seReg x y) ∧ decodeWord (0x9#4 ++ x ++ y ++ z) = .ok (.sneReg x y) ∧
    exec (.seReg x y) s = .next { s with pc := if s.reg x = s.reg y then s.pc + 4 else s.pc + 2 } ∧
    exec (.sneReg x y) s = .next { s with pc := if s.reg x = s.reg y then s.pc + 2 else s.pc + 4 }

/-! ### ALU -/

/-- R161, R163: the loads of an immediate and of a register. -/
def Obligations.LoadsWriteOneRegister : Prop :=
  ∀ (s : State) (x y : Nibble) (kk : Byte),
    decodeWord (0x6#4 ++ x ++ kk) = .ok (.ldByte x kk) ∧ decodeWord (0x8#4 ++ x ++ y ++ 0x0#4) = .ok (.ldReg x y) ∧
    (∃ t, exec (.ldByte x kk) s = .next t ∧ RegsAndAdvance s t ∧ ∀ r, t.reg r = if r = x then kk else s.reg r) ∧
    (∃ t, exec (.ldReg x y) s = .next t ∧ RegsAndAdvance s t ∧ ∀ r, t.reg r = if r = x then s.reg y else s.reg r)

/-- `ADD Vx, byte` (42_alu.md section 2): the sum mod 256, and no flag, by the spec's decision D10 (log 14). -/
def Obligations.AddImmediateWrapsWithoutAFlag : Prop :=
  ∀ (s : State) (x : Nibble) (kk : Byte), decodeWord (0x7#4 ++ x ++ kk) = .ok (.addByte x kk) ∧
    ∃ t, exec (.addByte x kk) s = .next t ∧ RegsAndAdvance s t ∧
      (t.reg x).toNat = ((s.reg x).toNat + kk.toNat) % 256 ∧ ∀ r, r ≠ x → t.reg r = s.reg r

/-- `OR`, `AND`, `XOR` bit by bit (42_alu.md section 3); `VF` is not written as a flag, by the spec's decision D9 (log 14). -/
def Obligations.LogicWorksBitByBit : Prop :=
  ∀ (s : State) (x y : Nibble),
    decodeWord (0x8#4 ++ x ++ y ++ 0x1#4) = .ok (.orReg x y) ∧
    decodeWord (0x8#4 ++ x ++ y ++ 0x2#4) = .ok (.andReg x y) ∧
    decodeWord (0x8#4 ++ x ++ y ++ 0x3#4) = .ok (.xorReg x y) ∧
    (∃ t, exec (.orReg x y) s = .next t ∧ RegsAndAdvance s t ∧ (∀ r, r ≠ x → t.reg r = s.reg r) ∧
      ∀ b, (t.reg x).getLsbD b = ((s.reg x).getLsbD b || (s.reg y).getLsbD b)) ∧
    (∃ t, exec (.andReg x y) s = .next t ∧ RegsAndAdvance s t ∧ (∀ r, r ≠ x → t.reg r = s.reg r) ∧
      ∀ b, (t.reg x).getLsbD b = ((s.reg x).getLsbD b && (s.reg y).getLsbD b)) ∧
    (∃ t, exec (.xorReg x y) s = .next t ∧ RegsAndAdvance s t ∧ (∀ r, r ≠ x → t.reg r = s.reg r) ∧
      ∀ b, (t.reg x).getLsbD b = ((s.reg x).getLsbD b != (s.reg y).getLsbD b))

/-- `ADD Vx, Vy` (42_alu.md section 3): `VF` is the carry, else `Vx` the sum mod 256; that sources are read first and the
flag wins for x = 0xF is the spec's decision D8 (log 13). -/
def Obligations.AddDeliversTheCarry : Prop :=
  ∀ (s : State) (x y : Nibble), decodeWord (0x8#4 ++ x ++ y ++ 0x4#4) = .ok (.addReg x y) ∧
    ∃ t, exec (.addReg x y) s = .next t ∧ RegsAndAdvance s t ∧
      ∀ r, t.reg r =
        if r = 0xF then (if 255 < (s.reg x).toNat + (s.reg y).toNat then 1 else 0)
        else if r = x then BitVec.ofNat 8 ((s.reg x).toNat + (s.reg y).toNat)
        else s.reg r

/-- `SUB` and `SUBN` (42_alu.md section 3): `VF` is 1 when there is no borrow; the order of reads and writes is the spec's
decision D8 (log 13). -/
def Obligations.SubtractsDeliverNotBorrow : Prop :=
  ∀ (s : State) (x y : Nibble),
    decodeWord (0x8#4 ++ x ++ y ++ 0x5#4) = .ok (.subReg x y) ∧ decodeWord (0x8#4 ++ x ++ y ++ 0x7#4) = .ok (.subn x y) ∧
    (∃ t, exec (.subReg x y) s = .next t ∧ RegsAndAdvance s t ∧
      ∀ r, t.reg r =
        if r = 0xF then (if (s.reg y).toNat ≤ (s.reg x).toNat then 1 else 0)
        else if r = x then BitVec.ofNat 8 ((s.reg x).toNat + 256 - (s.reg y).toNat)
        else s.reg r) ∧
    (∃ t, exec (.subn x y) s = .next t ∧ RegsAndAdvance s t ∧
      ∀ r, t.reg r =
        if r = 0xF then (if (s.reg x).toNat ≤ (s.reg y).toNat then 1 else 0)
        else if r = x then BitVec.ofNat 8 ((s.reg y).toNat + 256 - (s.reg x).toNat)
        else s.reg r)

/-- `SHR` and `SHL` (42_alu.md sections 3 and 5) for whichever value the OPEN parameter `SHIFT_SRC` has: the statement holds
for both (D11, log 2). The order of reads and writes is the spec's decision D8 (log 13). -/
def Obligations.ShiftsDeliverTheBitShiftedOut : Prop :=
  ∀ (s : State) (x y : Nibble) (v : Byte), v = (if Config.shiftSrc = .Y then s.reg y else s.reg x) →
    decodeWord (0x8#4 ++ x ++ y ++ 0x6#4) = .ok (.shr x y) ∧ decodeWord (0x8#4 ++ x ++ y ++ 0xE#4) = .ok (.shl x y) ∧
    (∃ t, exec (.shr x y) s = .next t ∧ RegsAndAdvance s t ∧
      ∀ r, t.reg r =
        if r = 0xF then (if v.toNat % 2 = 1 then 1 else 0)
        else if r = x then BitVec.ofNat 8 (v.toNat / 2)
        else s.reg r) ∧
    (∃ t, exec (.shl x y) s = .next t ∧ RegsAndAdvance s t ∧
      ∀ r, t.reg r =
        if r = 0xF then (if 128 ≤ v.toNat then 1 else 0)
        else if r = x then BitVec.ofNat 8 (v.toNat * 2)
        else s.reg r)

/-- `RND` (42_alu.md section 4) writes a drawn byte under its mask. The byte is a FREE VALUE, so this holds for every sequence
of draws; the counter `draws` is the model's own choice (log 1). -/
def Obligations.RandomByteIsMasked : Prop :=
  ∀ (s : State) (x : Nibble) (kk : Byte), decodeWord (0xC#4 ++ x ++ kk) = .ok (.rnd x kk) ∧
    ∃ t, exec (.rnd x kk) s = .next t ∧ t = { s with V := t.V, pc := s.pc + 2, draws := s.draws + 1 } ∧
      (∀ r, t.reg r = if r = x then Config.draw s.draws &&& kk else s.reg r) ∧ t.reg x &&& ~~~kk = 0

/-! ### Index register, loads and stores -/

/-- The three writes of `I` (43_index_memory.md). That `ADD I, Vx` writes no flag is the spec's decision D10 (log 14), the low
nibble of `LD F, Vx` D15 (log 17). -/
def Obligations.IndexRegisterIsWritten : Prop :=
  ∀ (s : State) (x : Nibble) (nnn : Addr),
    decodeWord (0xA#4 ++ nnn) = .ok (.ldI nnn) ∧ decodeWord (0xF#4 ++ x ++ 0x1E#8) = .ok (.addI x) ∧
    decodeWord (0xF#4 ++ x ++ 0x29#8) = .ok (.ldF x) ∧
    (∃ t, exec (.ldI nnn) s = .next t ∧ t = { s with I := t.I, pc := s.pc + 2 } ∧ t.I.toNat = nnn.toNat) ∧
    (∃ t, exec (.addI x) s = .next t ∧ t = { s with I := t.I, pc := s.pc + 2 } ∧
      t.I.toNat = (s.I.toNat + (s.reg x).toNat) % 65536) ∧
    (∃ t, exec (.ldF x) s = .next t ∧ t = { s with I := t.I, pc := s.pc + 2 } ∧
      t.I.toNat = (s.reg x).toNat % 16 * 5)

/-- `LD B, Vx` (43_index_memory.md): three decimal digits at `EA(0)`, `EA(1)`, `EA(2)` and no other byte, or, when one of the
addresses is below 0x200, the fault at the lowest offset and nothing else. The fault is the spec's decision D13 (log 4), its
precision D14 (log 21), the wrap of the addresses D12 (log 15). -/
def Obligations.BcdDigitsAreStored : Prop :=
  ∀ (s : State) (x : Nibble), decodeWord (0xF#4 ++ x ++ 0x33#8) = .ok (.ldB x) ∧
    ((∀ k < 3, 0x200 ≤ (s.ea k).toNat) →
      ∃ t, exec (.ldB x) s = .next t ∧ t = { s with mem := t.mem, pc := s.pc + 2 } ∧
        (t.memRead (s.ea 0)).toNat = (s.reg x).toNat / 100 ∧
        (t.memRead (s.ea 1)).toNat = (s.reg x).toNat / 10 % 10 ∧
        (t.memRead (s.ea 2)).toNat = (s.reg x).toNat % 10 ∧
        ∀ a : Addr, (∀ k < 3, a ≠ s.ea k) → t.memRead a = s.memRead a) ∧
    ∀ k < 3, (s.ea k).toNat < 0x200 → (∀ j < k, 0x200 ≤ (s.ea j).toNat) →
      exec (.ldB x) s = .next { s with runState := .halted, haltCause := some (.storeProtected (s.ea k)) }

/-- `LD [I], Vx` (43_index_memory.md): `V[0]` to `V[x]` at `EA(0)` to `EA(x)` and no other byte, or the fault at the lowest
offset below 0x200 and nothing else. Decisions of the spec as for `LD B, Vx`; that `I` is unchanged is D19 (log 15). -/
def Obligations.RegistersAreDumped : Prop :=
  ∀ (s : State) (x : Nibble), decodeWord (0xF#4 ++ x ++ 0x55#8) = .ok (.ldMemVx x) ∧
    ((∀ k ≤ x.toNat, 0x200 ≤ (s.ea k).toNat) →
      ∃ t, exec (.ldMemVx x) s = .next t ∧ t = { s with mem := t.mem, pc := s.pc + 2 } ∧
        (∀ r ≤ x, t.memRead (s.ea r.toNat) = s.reg r) ∧
        ∀ a : Addr, (∀ k ≤ x.toNat, a ≠ s.ea k) → t.memRead a = s.memRead a) ∧
    ∀ k ≤ x.toNat, (s.ea k).toNat < 0x200 → (∀ j < k, 0x200 ≤ (s.ea j).toNat) →
      exec (.ldMemVx x) s = .next { s with runState := .halted, haltCause := some (.storeProtected (s.ea k)) }

/-- `LD Vx, [I]` (43_index_memory.md): `V[0]` to `V[x]` from `EA(0)` to `EA(x)`, for every `I`; and what `EA(k)` is, here and
in every statement that names `State.ea` (R66). The wrap of the addresses is the spec's decision D12, `I` unchanged D19
(log 15). -/
def Obligations.RegistersAreLoaded : Prop :=
  ∀ (s : State) (x : Nibble), decodeWord (0xF#4 ++ x ++ 0x65#8) = .ok (.ldVxMem x) ∧
    (∀ k, (s.ea k).toNat = (s.I.toNat + k) % 4096) ∧
    ∃ t, exec (.ldVxMem x) s = .next t ∧ RegsAndAdvance s t ∧
      ∀ r, t.reg r = if r ≤ x then s.memRead (s.ea r.toNat) else s.reg r

/-- Dumping `V0..Vx` and loading the same range back into a zeroed register file reproduces the original values, for every x
(S13 of 95_test_vectors.md, quoted in R196); the run lies in the program region, where a dump is allowed (the spec's
decision D13, log 4), and the load finds it because a dump leaves `I` unchanged (D19, log 15). -/
def Obligations.DumpThenLoadReproducesTheRegisters : Prop :=
  ∀ (s : State) (x : Nibble), (∀ k ≤ x.toNat, 0x200 ≤ (s.ea k).toNat) →
    ∃ t u, exec (.ldMemVx x) s = .next t ∧ exec (.ldVxMem x) { t with V := Vector.replicate 16 0 } = .next u ∧
      u = { s with V := u.V, mem := t.mem, pc := s.pc + 4 } ∧ ∀ r, u.reg r = if r ≤ x then s.reg r else 0

/-- Bits 15:12 of `I` reach nothing but `I` (10_state.md section 3, derived there from the masked addresses): two states that
differ in them only are taken by every instruction to states that differ in them only. -/
def Obligations.HighBitsOfIndexReachNothingElse : Prop :=
  ∀ (i : Instr) (s t : State) (w : Word), w.toNat % 4096 = s.I.toNat % 4096 → exec i s = .next t →
    ∃ u, exec i { s with I := w } = .next u ∧ u = { t with I := u.I } ∧ u.I.toNat % 4096 = t.I.toNat % 4096

/-! ### Display -/

/-- `CLS` (44_display.md): every pixel off and the redraw flag set, which for `CLS` is the spec's decision D20 (log 20). -/
def Obligations.ClearTurnsEveryPixelOff : Prop :=
  ∀ s : State, ∃ t, exec .cls s = .next t ∧
    t = { s with disp := t.disp, redrawPending := true, pc := s.pc + 2 } ∧ ∀ px < 64, ∀ py < 32, t.pixel px py = false

/-- `DRW` (44_display.md sections with R212 and R213): exactly the pixels under a 1 bit of the sprite flip, and `VF` is 1
when one of them was on, else 0. Bit order, n = 0 and the redraw flag are the spec's decision D20 (log 20), the flag after
the reads D8 (log 13). -/
def Obligations.DrawFlipsThePixelsUnderTheSprite : Prop :=
  ∀ (s : State) (x y n : Nibble), decodeWord (0xD#4 ++ x ++ y ++ n) = .ok (.drw x y n) ∧
    ∃ t, exec (.drw x y n) s = .next t ∧
      t = { s with V := t.V, disp := t.disp, redrawPending := true, pc := s.pc + 2 } ∧
      (∀ px < 64, ∀ py < 32, UnderSprite s x y n px py → t.pixel px py = !s.pixel px py) ∧
      (∀ px < 64, ∀ py < 32, ¬ UnderSprite s x y n px py → t.pixel px py = s.pixel px py) ∧
      (∀ r, r ≠ 0xF → t.reg r = s.reg r) ∧
      ((∃ px < 64, ∃ py < 32, UnderSprite s x y n px py ∧ s.pixel px py = true) → t.reg 0xF = 1) ∧
      (¬ (∃ px < 64, ∃ py < 32, UnderSprite s x y n px py ∧ s.pixel px py = true) → t.reg 0xF = 0)

/-- Drawing the same sprite twice at the same place restores the display, and the second draw reports a collision when the
sprite has a 1 bit and its pixels were off before (S10 of 95_test_vectors.md, 44_display.md corner case (h)). A coordinate in
`VF` would move between the draws, so x and y name other registers. -/
def Obligations.DrawTwiceRestoresTheDisplay : Prop :=
  ∀ (s : State) (x y n : Nibble), x ≠ 0xF → y ≠ 0xF →
    ∃ t u, exec (.drw x y n) s = .next t ∧ exec (.drw x y n) t = .next u ∧ u.disp = s.disp ∧
      ((∃ px < 64, ∃ py < 32, UnderSprite s x y n px py) →
        (∀ px < 64, ∀ py < 32, UnderSprite s x y n px py → s.pixel px py = false) → u.reg 0xF = 1)

/-! ### Keypad and timers -/

/-- `SKP` and `SKNP` (45_keypad_timer_ops.md): the tested key is the low nibble of `Vx` (the spec's decision D16, log 17), and
both consume it when it is pressed (D17, log 18). -/
def Obligations.KeySkipsConsumeTheKey : Prop :=
  ∀ (s : State) (x k : Nibble), k.toNat = (s.reg x).toNat % 16 →
    decodeWord (0xE#4 ++ x ++ 0x9E#8) = .ok (.skp x) ∧ decodeWord (0xE#4 ++ x ++ 0xA1#8) = .ok (.sknp x) ∧
    (∃ t, exec (.skp x) s = .next t ∧
      t = { s with key := t.key, pc := if s.keyDown k then s.pc + 4 else s.pc + 2 } ∧
      ∀ j, t.keyDown j = if j = k then false else s.keyDown j) ∧
    (∃ t, exec (.sknp x) s = .next t ∧
      t = { s with key := t.key, pc := if s.keyDown k then s.pc + 2 else s.pc + 4 } ∧
      ∀ j, t.keyDown j = if j = k then false else s.keyDown j)

/-- `LD Vx, K` (45_keypad_timer_ops.md): it enters `WaitingForKey` with its register latched, `pc` unmoved and no key read,
by the spec's decision D18 (log 19). -/
def Obligations.WaitForKeyEntersTheWait : Prop :=
  ∀ (s : State) (x : Nibble), decodeWord (0xF#4 ++ x ++ 0x0A#8) = .ok (.ldVxK x) ∧
    exec (.ldVxK x) s = .next { s with waitReg := x, runState := .waitingForKey }

/-- The timer instructions (45_keypad_timer_ops.md). That `LD ST, Vx` raises no beep is the spec's decision D21 (log 18). -/
def Obligations.TimerInstructionsMoveOneByte : Prop :=
  ∀ (s : State) (x : Nibble),
    decodeWord (0xF#4 ++ x ++ 0x07#8) = .ok (.ldVxDt x) ∧ decodeWord (0xF#4 ++ x ++ 0x15#8) = .ok (.ldDtVx x) ∧
    decodeWord (0xF#4 ++ x ++ 0x18#8) = .ok (.ldStVx x) ∧
    (∃ t, exec (.ldVxDt x) s = .next t ∧ RegsAndAdvance s t ∧ ∀ r, t.reg r = if r = x then s.delay else s.reg r) ∧
    exec (.ldDtVx x) s = .next { s with delay := s.reg x, pc := s.pc + 2 } ∧
    exec (.ldStVx x) s = .next { s with sound := s.reg x, pc := s.pc + 2 }

/-- "No instruction ever sets a key", and a step clears at most one (45_keypad_timer_ops.md section with R232). -/
def Obligations.NoStepSetsAKey : Prop :=
  ∀ s t : State, step s = .next t →
    (∀ k, t.keyDown k = true → s.keyDown k = true) ∧ ∃ k, ∀ j, j ≠ k → t.keyDown j = s.keyDown j

/-- `delay` never increases but by `LD DT, Vx`, and a step without it takes at most one from it (60_exceptions.md section 4). -/
def Obligations.DelayFallsByAtMostOne : Prop :=
  ∀ s t : State, step s = .next t → (∀ x, decodeWord (s.wordAt s.pc) ≠ .ok (.ldDtVx x)) →
    t.delay.toNat ≤ s.delay.toNat ∧ s.delay.toNat ≤ t.delay.toNat + 1

/-! ### The whole instruction set -/

/-- No piece of state is written by an instruction other than those of its clause, which are those that the table of
10_state.md section 1 names for it (for `V` and `I`, where the table says "instructions", those whose own rules write them;
for `pc`, every one that neither waits nor faults). That these do write it is what their own statements say. `draws` is the
model's own field (log 1). -/
def Obligations.InstructionsWriteOnlyTheirState : Prop :=
  ∀ (i : Instr) (s t : State), exec i s = .next t →
    (t.V ≠ s.V →
      (∃ x kk, i = .ldByte x kk ∨ i = .addByte x kk ∨ i = .rnd x kk) ∨
      (∃ x y, i = .ldReg x y ∨ i = .orReg x y ∨ i = .andReg x y ∨ i = .xorReg x y) ∨
      (∃ x y, i = .addReg x y ∨ i = .subReg x y ∨ i = .shr x y ∨ i = .subn x y ∨ i = .shl x y) ∨
      (∃ x y n, i = .drw x y n) ∨ ∃ x, i = .ldVxDt x ∨ i = .ldVxMem x) ∧
    (t.pc ≠ s.pc → (∀ x, i ≠ .ldVxK x) ∧ t.runState = s.runState ∧ t.haltCause = s.haltCause) ∧
    (t.draws ≠ s.draws → ∃ x kk, i = .rnd x kk) ∧
    (t.I ≠ s.I → (∃ nnn, i = .ldI nnn) ∨ (∃ x, i = .addI x) ∨ ∃ x, i = .ldF x) ∧
    (t.mem ≠ s.mem → (∃ x, i = .ldB x) ∨ ∃ x, i = .ldMemVx x) ∧
    (t.disp ≠ s.disp → i = .cls ∨ ∃ x y n, i = .drw x y n) ∧
    (t.redrawPending ≠ s.redrawPending → i = .cls ∨ ∃ x y n, i = .drw x y n) ∧
    (t.stack ≠ s.stack → ∃ nnn, i = .call nnn) ∧
    (t.sp ≠ s.sp → i = .ret ∨ ∃ nnn, i = .call nnn) ∧
    (t.delay ≠ s.delay → ∃ x, i = .ldDtVx x) ∧
    (t.sound ≠ s.sound → ∃ x, i = .ldStVx x) ∧
    (t.key ≠ s.key → (∃ x, i = .skp x) ∨ ∃ x, i = .sknp x) ∧
    (t.waitReg ≠ s.waitReg → ∃ x, i = .ldVxK x) ∧
    (t.runState ≠ s.runState → (∃ x, i = .ldVxK x) ∨ t.runState = .halted) ∧
    (t.haltCause ≠ s.haltCause → t.runState = .halted) ∧
    t.tickPending = s.tickPending ∧ t.beepPending = s.beepPending

/-! ### Host operations -/

/-- R274, R279, R280: the polled flags are one-shot, and the snapshot is the 2048 cells in row-major order, read without a
change of state. -/
def Obligations.HostReadsAreOneShot : Prop :=
  ∀ s : State,
    s.pollBeep = (s.beepPending, { s with beepPending := false }) ∧
    s.takeRedraw = (s.redrawPending, { s with redrawPending := false }) ∧
    act .pollBeep s = .next s.pollBeep.2 ∧ act .takeRedraw s = .next s.takeRedraw.2 ∧ act .getDisplay s = .next s ∧
    s.getDisplay.length = 2048 ∧ ∀ px < 64, ∀ py < 32, s.getDisplay[py * 64 + px]? = some (s.pixel px py)

/-- `set_key` writes its key and nothing else, and the tick source its latch and nothing else, so that ticks between two steps
are coalesced (60_exceptions.md sections 4 and 5; the latch is the spec's decision D1, log 9). -/
def Obligations.KeysAndTicksArrive : Prop :=
  ∀ (s : State) (k : Nibble) (p : Bool),
    (∃ t, act (.setKey k p) s = .next t ∧ t = { s with key := t.key } ∧
      ∀ j, t.keyDown j = if j = k then p else s.keyDown j) ∧
    runActions [.tick] s = .next { s with tickPending := true } ∧ runActions [.tick, .tick] s = runActions [.tick] s

/-- `load_rom` (70_reset_and_hazards.md section 2): the ROM at 0x200, zeros to the end, `pc`, and nothing else; a ROM above
3584 bytes changes nothing. The zero fill and the failed load are the spec's decision D23 (log 25). -/
def Obligations.LoadRomWritesTheProgramRegion : Prop :=
  ∀ (s : State) (bytes : List Byte),
    (bytes.length ≤ 3584 → ∃ t, s.loadRom bytes = .ok t ∧ act (.loadRom bytes) s = .next t ∧
      t = { s with mem := t.mem, pc := 0x0200 } ∧
      (∀ a : Addr, a.toNat < 0x200 → t.memRead a = s.memRead a) ∧
      ∀ a : Addr, 0x200 ≤ a.toNat → t.memRead a = bytes.getD (a.toNat - 0x200) 0x00) ∧
    (3584 < bytes.length → s.loadRom bytes = .error .romTooLarge ∧ act (.loadRom bytes) s = .next s)
end

