-- ==== Sys2Proof/Laws/State.lean ====
section
/-!
SUPPORT. One lemma per field of State per update, true by rfl, so that no later proof unfolds a record update; and the
accessors over the updates that leave their field alone.
-/

namespace Sys2Proof.Machine

variable (s : State)

/-! ### `State.setReg` -/

@[simp] theorem State.setReg_V (r : Nibble) (b : Byte) : (s.setReg r b).V = s.V.set r.toNat b r.isLt := rfl
@[simp] theorem State.setReg_I (r : Nibble) (b : Byte) : (s.setReg r b).I = s.I := rfl
@[simp] theorem State.setReg_pc (r : Nibble) (b : Byte) : (s.setReg r b).pc = s.pc := rfl
@[simp] theorem State.setReg_mem (r : Nibble) (b : Byte) : (s.setReg r b).mem = s.mem := rfl
@[simp] theorem State.setReg_disp (r : Nibble) (b : Byte) : (s.setReg r b).disp = s.disp := rfl
@[simp] theorem State.setReg_stack (r : Nibble) (b : Byte) : (s.setReg r b).stack = s.stack := rfl
@[simp] theorem State.setReg_sp (r : Nibble) (b : Byte) : (s.setReg r b).sp = s.sp := rfl
@[simp] theorem State.setReg_delay (r : Nibble) (b : Byte) : (s.setReg r b).delay = s.delay := rfl
@[simp] theorem State.setReg_sound (r : Nibble) (b : Byte) : (s.setReg r b).sound = s.sound := rfl
@[simp] theorem State.setReg_key (r : Nibble) (b : Byte) : (s.setReg r b).key = s.key := rfl
@[simp] theorem State.setReg_runState (r : Nibble) (b : Byte) : (s.setReg r b).runState = s.runState := rfl
@[simp] theorem State.setReg_waitReg (r : Nibble) (b : Byte) : (s.setReg r b).waitReg = s.waitReg := rfl
@[simp] theorem State.setReg_haltCause (r : Nibble) (b : Byte) : (s.setReg r b).haltCause = s.haltCause := rfl
@[simp] theorem State.setReg_tickPending (r : Nibble) (b : Byte) : (s.setReg r b).tickPending = s.tickPending := rfl
@[simp] theorem State.setReg_redrawPending (r : Nibble) (b : Byte) : (s.setReg r b).redrawPending = s.redrawPending := rfl
@[simp] theorem State.setReg_beepPending (r : Nibble) (b : Byte) : (s.setReg r b).beepPending = s.beepPending := rfl
@[simp] theorem State.setReg_draws (r : Nibble) (b : Byte) : (s.setReg r b).draws = s.draws := rfl
@[simp] theorem State.setReg_memRead (r : Nibble) (b : Byte) (q : Addr) : (s.setReg r b).memRead q = s.memRead q := rfl
@[simp] theorem State.setReg_ea (r : Nibble) (b : Byte) (q : Nat) : (s.setReg r b).ea q = s.ea q := rfl
@[simp] theorem State.setReg_keyDown (r : Nibble) (b : Byte) (q : Nibble) : (s.setReg r b).keyDown q = s.keyDown q := rfl
@[simp] theorem State.setReg_pixel (r : Nibble) (b : Byte) (px py : Nat) : (s.setReg r b).pixel px py = s.pixel px py := rfl

/-! ### `State.setI` -/

@[simp] theorem State.setI_V (w : Word) : (s.setI w).V = s.V := rfl
@[simp] theorem State.setI_I (w : Word) : (s.setI w).I = w := rfl
@[simp] theorem State.setI_pc (w : Word) : (s.setI w).pc = s.pc := rfl
@[simp] theorem State.setI_mem (w : Word) : (s.setI w).mem = s.mem := rfl
@[simp] theorem State.setI_disp (w : Word) : (s.setI w).disp = s.disp := rfl
@[simp] theorem State.setI_stack (w : Word) : (s.setI w).stack = s.stack := rfl
@[simp] theorem State.setI_sp (w : Word) : (s.setI w).sp = s.sp := rfl
@[simp] theorem State.setI_delay (w : Word) : (s.setI w).delay = s.delay := rfl
@[simp] theorem State.setI_sound (w : Word) : (s.setI w).sound = s.sound := rfl
@[simp] theorem State.setI_key (w : Word) : (s.setI w).key = s.key := rfl
@[simp] theorem State.setI_runState (w : Word) : (s.setI w).runState = s.runState := rfl
@[simp] theorem State.setI_waitReg (w : Word) : (s.setI w).waitReg = s.waitReg := rfl
@[simp] theorem State.setI_haltCause (w : Word) : (s.setI w).haltCause = s.haltCause := rfl
@[simp] theorem State.setI_tickPending (w : Word) : (s.setI w).tickPending = s.tickPending := rfl
@[simp] theorem State.setI_redrawPending (w : Word) : (s.setI w).redrawPending = s.redrawPending := rfl
@[simp] theorem State.setI_beepPending (w : Word) : (s.setI w).beepPending = s.beepPending := rfl
@[simp] theorem State.setI_draws (w : Word) : (s.setI w).draws = s.draws := rfl
@[simp] theorem State.setI_reg (w : Word) (q : Nibble) : (s.setI w).reg q = s.reg q := rfl
@[simp] theorem State.setI_memRead (w : Word) (q : Addr) : (s.setI w).memRead q = s.memRead q := rfl
@[simp] theorem State.setI_keyDown (w : Word) (q : Nibble) : (s.setI w).keyDown q = s.keyDown q := rfl
@[simp] theorem State.setI_pixel (w : Word) (px py : Nat) : (s.setI w).pixel px py = s.pixel px py := rfl

/-! ### `State.setPc` -/

@[simp] theorem State.setPc_V (w : Word) : (s.setPc w).V = s.V := rfl
@[simp] theorem State.setPc_I (w : Word) : (s.setPc w).I = s.I := rfl
@[simp] theorem State.setPc_pc (w : Word) : (s.setPc w).pc = w := rfl
@[simp] theorem State.setPc_mem (w : Word) : (s.setPc w).mem = s.mem := rfl
@[simp] theorem State.setPc_disp (w : Word) : (s.setPc w).disp = s.disp := rfl
@[simp] theorem State.setPc_stack (w : Word) : (s.setPc w).stack = s.stack := rfl
@[simp] theorem State.setPc_sp (w : Word) : (s.setPc w).sp = s.sp := rfl
@[simp] theorem State.setPc_delay (w : Word) : (s.setPc w).delay = s.delay := rfl
@[simp] theorem State.setPc_sound (w : Word) : (s.setPc w).sound = s.sound := rfl
@[simp] theorem State.setPc_key (w : Word) : (s.setPc w).key = s.key := rfl
@[simp] theorem State.setPc_runState (w : Word) : (s.setPc w).runState = s.runState := rfl
@[simp] theorem State.setPc_waitReg (w : Word) : (s.setPc w).waitReg = s.waitReg := rfl
@[simp] theorem State.setPc_haltCause (w : Word) : (s.setPc w).haltCause = s.haltCause := rfl
@[simp] theorem State.setPc_tickPending (w : Word) : (s.setPc w).tickPending = s.tickPending := rfl
@[simp] theorem State.setPc_redrawPending (w : Word) : (s.setPc w).redrawPending = s.redrawPending := rfl
@[simp] theorem State.setPc_beepPending (w : Word) : (s.setPc w).beepPending = s.beepPending := rfl
@[simp] theorem State.setPc_draws (w : Word) : (s.setPc w).draws = s.draws := rfl
@[simp] theorem State.setPc_reg (w : Word) (q : Nibble) : (s.setPc w).reg q = s.reg q := rfl
@[simp] theorem State.setPc_memRead (w : Word) (q : Addr) : (s.setPc w).memRead q = s.memRead q := rfl
@[simp] theorem State.setPc_ea (w : Word) (q : Nat) : (s.setPc w).ea q = s.ea q := rfl
@[simp] theorem State.setPc_keyDown (w : Word) (q : Nibble) : (s.setPc w).keyDown q = s.keyDown q := rfl
@[simp] theorem State.setPc_pixel (w : Word) (px py : Nat) : (s.setPc w).pixel px py = s.pixel px py := rfl

/-! ### `State.advance` -/

@[simp] theorem State.advance_V : (s.advance).V = s.V := rfl
@[simp] theorem State.advance_I : (s.advance).I = s.I := rfl
@[simp] theorem State.advance_pc : (s.advance).pc = s.pc + 2 := rfl
@[simp] theorem State.advance_mem : (s.advance).mem = s.mem := rfl
@[simp] theorem State.advance_disp : (s.advance).disp = s.disp := rfl
@[simp] theorem State.advance_stack : (s.advance).stack = s.stack := rfl
@[simp] theorem State.advance_sp : (s.advance).sp = s.sp := rfl
@[simp] theorem State.advance_delay : (s.advance).delay = s.delay := rfl
@[simp] theorem State.advance_sound : (s.advance).sound = s.sound := rfl
@[simp] theorem State.advance_key : (s.advance).key = s.key := rfl
@[simp] theorem State.advance_runState : (s.advance).runState = s.runState := rfl
@[simp] theorem State.advance_waitReg : (s.advance).waitReg = s.waitReg := rfl
@[simp] theorem State.advance_haltCause : (s.advance).haltCause = s.haltCause := rfl
@[simp] theorem State.advance_tickPending : (s.advance).tickPending = s.tickPending := rfl
@[simp] theorem State.advance_redrawPending : (s.advance).redrawPending = s.redrawPending := rfl
@[simp] theorem State.advance_beepPending : (s.advance).beepPending = s.beepPending := rfl
@[simp] theorem State.advance_draws : (s.advance).draws = s.draws := rfl
@[simp] theorem State.advance_reg (q : Nibble) : (s.advance).reg q = s.reg q := rfl
@[simp] theorem State.advance_memRead (q : Addr) : (s.advance).memRead q = s.memRead q := rfl
@[simp] theorem State.advance_ea (q : Nat) : (s.advance).ea q = s.ea q := rfl
@[simp] theorem State.advance_keyDown (q : Nibble) : (s.advance).keyDown q = s.keyDown q := rfl
@[simp] theorem State.advance_pixel (px py : Nat) : (s.advance).pixel px py = s.pixel px py := rfl

/-! ### `State.skipIf` -/

@[simp] theorem State.skipIf_V (c : Bool) : (s.skipIf c).V = s.V := rfl
@[simp] theorem State.skipIf_I (c : Bool) : (s.skipIf c).I = s.I := rfl
@[simp] theorem State.skipIf_pc (c : Bool) : (s.skipIf c).pc = s.pc + (if c then 4 else 2) := rfl
@[simp] theorem State.skipIf_mem (c : Bool) : (s.skipIf c).mem = s.mem := rfl
@[simp] theorem State.skipIf_disp (c : Bool) : (s.skipIf c).disp = s.disp := rfl
@[simp] theorem State.skipIf_stack (c : Bool) : (s.skipIf c).stack = s.stack := rfl
@[simp] theorem State.skipIf_sp (c : Bool) : (s.skipIf c).sp = s.sp := rfl
@[simp] theorem State.skipIf_delay (c : Bool) : (s.skipIf c).delay = s.delay := rfl
@[simp] theorem State.skipIf_sound (c : Bool) : (s.skipIf c).sound = s.sound := rfl
@[simp] theorem State.skipIf_key (c : Bool) : (s.skipIf c).key = s.key := rfl
@[simp] theorem State.skipIf_runState (c : Bool) : (s.skipIf c).runState = s.runState := rfl
@[simp] theorem State.skipIf_waitReg (c : Bool) : (s.skipIf c).waitReg = s.waitReg := rfl
@[simp] theorem State.skipIf_haltCause (c : Bool) : (s.skipIf c).haltCause = s.haltCause := rfl
@[simp] theorem State.skipIf_tickPending (c : Bool) : (s.skipIf c).tickPending = s.tickPending := rfl
@[simp] theorem State.skipIf_redrawPending (c : Bool) : (s.skipIf c).redrawPending = s.redrawPending := rfl
@[simp] theorem State.skipIf_beepPending (c : Bool) : (s.skipIf c).beepPending = s.beepPending := rfl
@[simp] theorem State.skipIf_draws (c : Bool) : (s.skipIf c).draws = s.draws := rfl
@[simp] theorem State.skipIf_reg (c : Bool) (q : Nibble) : (s.skipIf c).reg q = s.reg q := rfl
@[simp] theorem State.skipIf_memRead (c : Bool) (q : Addr) : (s.skipIf c).memRead q = s.memRead q := rfl
@[simp] theorem State.skipIf_ea (c : Bool) (q : Nat) : (s.skipIf c).ea q = s.ea q := rfl
@[simp] theorem State.skipIf_keyDown (c : Bool) (q : Nibble) : (s.skipIf c).keyDown q = s.keyDown q := rfl
@[simp] theorem State.skipIf_pixel (c : Bool) (px py : Nat) : (s.skipIf c).pixel px py = s.pixel px py := rfl

/-! ### `State.halt` -/

@[simp] theorem State.halt_V (f : Fault) : (s.halt f).V = s.V := rfl
@[simp] theorem State.halt_I (f : Fault) : (s.halt f).I = s.I := rfl
@[simp] theorem State.halt_pc (f : Fault) : (s.halt f).pc = s.pc := rfl
@[simp] theorem State.halt_mem (f : Fault) : (s.halt f).mem = s.mem := rfl
@[simp] theorem State.halt_disp (f : Fault) : (s.halt f).disp = s.disp := rfl
@[simp] theorem State.halt_stack (f : Fault) : (s.halt f).stack = s.stack := rfl
@[simp] theorem State.halt_sp (f : Fault) : (s.halt f).sp = s.sp := rfl
@[simp] theorem State.halt_delay (f : Fault) : (s.halt f).delay = s.delay := rfl
@[simp] theorem State.halt_sound (f : Fault) : (s.halt f).sound = s.sound := rfl
@[simp] theorem State.halt_key (f : Fault) : (s.halt f).key = s.key := rfl
@[simp] theorem State.halt_runState (f : Fault) : (s.halt f).runState = .halted := rfl
@[simp] theorem State.halt_waitReg (f : Fault) : (s.halt f).waitReg = s.waitReg := rfl
@[simp] theorem State.halt_haltCause (f : Fault) : (s.halt f).haltCause = some f := rfl
@[simp] theorem State.halt_tickPending (f : Fault) : (s.halt f).tickPending = s.tickPending := rfl
@[simp] theorem State.halt_redrawPending (f : Fault) : (s.halt f).redrawPending = s.redrawPending := rfl
@[simp] theorem State.halt_beepPending (f : Fault) : (s.halt f).beepPending = s.beepPending := rfl
@[simp] theorem State.halt_draws (f : Fault) : (s.halt f).draws = s.draws := rfl
@[simp] theorem State.halt_reg (f : Fault) (q : Nibble) : (s.halt f).reg q = s.reg q := rfl
@[simp] theorem State.halt_memRead (f : Fault) (q : Addr) : (s.halt f).memRead q = s.memRead q := rfl
@[simp] theorem State.halt_ea (f : Fault) (q : Nat) : (s.halt f).ea q = s.ea q := rfl
@[simp] theorem State.halt_keyDown (f : Fault) (q : Nibble) : (s.halt f).keyDown q = s.keyDown q := rfl
@[simp] theorem State.halt_pixel (f : Fault) (px py : Nat) : (s.halt f).pixel px py = s.pixel px py := rfl

/-! ### `State.memWrite` -/

@[simp] theorem State.memWrite_V (a : Addr) (b : Byte) : (s.memWrite a b).V = s.V := rfl
@[simp] theorem State.memWrite_I (a : Addr) (b : Byte) : (s.memWrite a b).I = s.I := rfl
@[simp] theorem State.memWrite_pc (a : Addr) (b : Byte) : (s.memWrite a b).pc = s.pc := rfl
@[simp] theorem State.memWrite_mem (a : Addr) (b : Byte) : (s.memWrite a b).mem = Memory.set s.mem a.toNat b := rfl
@[simp] theorem State.memWrite_disp (a : Addr) (b : Byte) : (s.memWrite a b).disp = s.disp := rfl
@[simp] theorem State.memWrite_stack (a : Addr) (b : Byte) : (s.memWrite a b).stack = s.stack := rfl
@[simp] theorem State.memWrite_sp (a : Addr) (b : Byte) : (s.memWrite a b).sp = s.sp := rfl
@[simp] theorem State.memWrite_delay (a : Addr) (b : Byte) : (s.memWrite a b).delay = s.delay := rfl
@[simp] theorem State.memWrite_sound (a : Addr) (b : Byte) : (s.memWrite a b).sound = s.sound := rfl
@[simp] theorem State.memWrite_key (a : Addr) (b : Byte) : (s.memWrite a b).key = s.key := rfl
@[simp] theorem State.memWrite_runState (a : Addr) (b : Byte) : (s.memWrite a b).runState = s.runState := rfl
@[simp] theorem State.memWrite_waitReg (a : Addr) (b : Byte) : (s.memWrite a b).waitReg = s.waitReg := rfl
@[simp] theorem State.memWrite_haltCause (a : Addr) (b : Byte) : (s.memWrite a b).haltCause = s.haltCause := rfl
@[simp] theorem State.memWrite_tickPending (a : Addr) (b : Byte) : (s.memWrite a b).tickPending = s.tickPending := rfl
@[simp] theorem State.memWrite_redrawPending (a : Addr) (b : Byte) : (s.memWrite a b).redrawPending = s.redrawPending := rfl
@[simp] theorem State.memWrite_beepPending (a : Addr) (b : Byte) : (s.memWrite a b).beepPending = s.beepPending := rfl
@[simp] theorem State.memWrite_draws (a : Addr) (b : Byte) : (s.memWrite a b).draws = s.draws := rfl
@[simp] theorem State.memWrite_reg (a : Addr) (b : Byte) (q : Nibble) : (s.memWrite a b).reg q = s.reg q := rfl
@[simp] theorem State.memWrite_ea (a : Addr) (b : Byte) (q : Nat) : (s.memWrite a b).ea q = s.ea q := rfl
@[simp] theorem State.memWrite_keyDown (a : Addr) (b : Byte) (q : Nibble) : (s.memWrite a b).keyDown q = s.keyDown q := rfl
@[simp] theorem State.memWrite_pixel (a : Addr) (b : Byte) (px py : Nat) : (s.memWrite a b).pixel px py = s.pixel px py := rfl

/-! ### `State.showDisp` -/

@[simp] theorem State.showDisp_V (d : Display) : (s.showDisp d).V = s.V := rfl
@[simp] theorem State.showDisp_I (d : Display) : (s.showDisp d).I = s.I := rfl
@[simp] theorem State.showDisp_pc (d : Display) : (s.showDisp d).pc = s.pc := rfl
@[simp] theorem State.showDisp_mem (d : Display) : (s.showDisp d).mem = s.mem := rfl
@[simp] theorem State.showDisp_disp (d : Display) : (s.showDisp d).disp = d := rfl
@[simp] theorem State.showDisp_stack (d : Display) : (s.showDisp d).stack = s.stack := rfl
@[simp] theorem State.showDisp_sp (d : Display) : (s.showDisp d).sp = s.sp := rfl
@[simp] theorem State.showDisp_delay (d : Display) : (s.showDisp d).delay = s.delay := rfl
@[simp] theorem State.showDisp_sound (d : Display) : (s.showDisp d).sound = s.sound := rfl
@[simp] theorem State.showDisp_key (d : Display) : (s.showDisp d).key = s.key := rfl
@[simp] theorem State.showDisp_runState (d : Display) : (s.showDisp d).runState = s.runState := rfl
@[simp] theorem State.showDisp_waitReg (d : Display) : (s.showDisp d).waitReg = s.waitReg := rfl
@[simp] theorem State.showDisp_haltCause (d : Display) : (s.showDisp d).haltCause = s.haltCause := rfl
@[simp] theorem State.showDisp_tickPending (d : Display) : (s.showDisp d).tickPending = s.tickPending := rfl
@[simp] theorem State.showDisp_redrawPending (d : Display) : (s.showDisp d).redrawPending = true := rfl
@[simp] theorem State.showDisp_beepPending (d : Display) : (s.showDisp d).beepPending = s.beepPending := rfl
@[simp] theorem State.showDisp_draws (d : Display) : (s.showDisp d).draws = s.draws := rfl
@[simp] theorem State.showDisp_reg (d : Display) (q : Nibble) : (s.showDisp d).reg q = s.reg q := rfl
@[simp] theorem State.showDisp_memRead (d : Display) (q : Addr) : (s.showDisp d).memRead q = s.memRead q := rfl
@[simp] theorem State.showDisp_ea (d : Display) (q : Nat) : (s.showDisp d).ea q = s.ea q := rfl
@[simp] theorem State.showDisp_keyDown (d : Display) (q : Nibble) : (s.showDisp d).keyDown q = s.keyDown q := rfl

/-! ### `State.putKey` -/

@[simp] theorem State.putKey_V (k : Nibble) (p : Bool) : (s.putKey k p).V = s.V := rfl
@[simp] theorem State.putKey_I (k : Nibble) (p : Bool) : (s.putKey k p).I = s.I := rfl
@[simp] theorem State.putKey_pc (k : Nibble) (p : Bool) : (s.putKey k p).pc = s.pc := rfl
@[simp] theorem State.putKey_mem (k : Nibble) (p : Bool) : (s.putKey k p).mem = s.mem := rfl
@[simp] theorem State.putKey_disp (k : Nibble) (p : Bool) : (s.putKey k p).disp = s.disp := rfl
@[simp] theorem State.putKey_stack (k : Nibble) (p : Bool) : (s.putKey k p).stack = s.stack := rfl
@[simp] theorem State.putKey_sp (k : Nibble) (p : Bool) : (s.putKey k p).sp = s.sp := rfl
@[simp] theorem State.putKey_delay (k : Nibble) (p : Bool) : (s.putKey k p).delay = s.delay := rfl
@[simp] theorem State.putKey_sound (k : Nibble) (p : Bool) : (s.putKey k p).sound = s.sound := rfl
@[simp] theorem State.putKey_key (k : Nibble) (p : Bool) : (s.putKey k p).key = s.key.set k.toNat p k.isLt := rfl
@[simp] theorem State.putKey_runState (k : Nibble) (p : Bool) : (s.putKey k p).runState = s.runState := rfl
@[simp] theorem State.putKey_waitReg (k : Nibble) (p : Bool) : (s.putKey k p).waitReg = s.waitReg := rfl
@[simp] theorem State.putKey_haltCause (k : Nibble) (p : Bool) : (s.putKey k p).haltCause = s.haltCause := rfl
@[simp] theorem State.putKey_tickPending (k : Nibble) (p : Bool) : (s.putKey k p).tickPending = s.tickPending := rfl
@[simp] theorem State.putKey_redrawPending (k : Nibble) (p : Bool) : (s.putKey k p).redrawPending = s.redrawPending := rfl
@[simp] theorem State.putKey_beepPending (k : Nibble) (p : Bool) : (s.putKey k p).beepPending = s.beepPending := rfl
@[simp] theorem State.putKey_draws (k : Nibble) (p : Bool) : (s.putKey k p).draws = s.draws := rfl
@[simp] theorem State.putKey_reg (k : Nibble) (p : Bool) (q : Nibble) : (s.putKey k p).reg q = s.reg q := rfl
@[simp] theorem State.putKey_memRead (k : Nibble) (p : Bool) (q : Addr) : (s.putKey k p).memRead q = s.memRead q := rfl
@[simp] theorem State.putKey_ea (k : Nibble) (p : Bool) (q : Nat) : (s.putKey k p).ea q = s.ea q := rfl
@[simp] theorem State.putKey_pixel (k : Nibble) (p : Bool) (px py : Nat) : (s.putKey k p).pixel px py = s.pixel px py := rfl

/-! ### `State.setDelay` -/

@[simp] theorem State.setDelay_V (b : Byte) : (s.setDelay b).V = s.V := rfl
@[simp] theorem State.setDelay_I (b : Byte) : (s.setDelay b).I = s.I := rfl
@[simp] theorem State.setDelay_pc (b : Byte) : (s.setDelay b).pc = s.pc := rfl
@[simp] theorem State.setDelay_mem (b : Byte) : (s.setDelay b).mem = s.mem := rfl
@[simp] theorem State.setDelay_disp (b : Byte) : (s.setDelay b).disp = s.disp := rfl
@[simp] theorem State.setDelay_stack (b : Byte) : (s.setDelay b).stack = s.stack := rfl
@[simp] theorem State.setDelay_sp (b : Byte) : (s.setDelay b).sp = s.sp := rfl
@[simp] theorem State.setDelay_delay (b : Byte) : (s.setDelay b).delay = b := rfl
@[simp] theorem State.setDelay_sound (b : Byte) : (s.setDelay b).sound = s.sound := rfl
@[simp] theorem State.setDelay_key (b : Byte) : (s.setDelay b).key = s.key := rfl
@[simp] theorem State.setDelay_runState (b : Byte) : (s.setDelay b).runState = s.runState := rfl
@[simp] theorem State.setDelay_waitReg (b : Byte) : (s.setDelay b).waitReg = s.waitReg := rfl
@[simp] theorem State.setDelay_haltCause (b : Byte) : (s.setDelay b).haltCause = s.haltCause := rfl
@[simp] theorem State.setDelay_tickPending (b : Byte) : (s.setDelay b).tickPending = s.tickPending := rfl
@[simp] theorem State.setDelay_redrawPending (b : Byte) : (s.setDelay b).redrawPending = s.redrawPending := rfl
@[simp] theorem State.setDelay_beepPending (b : Byte) : (s.setDelay b).beepPending = s.beepPending := rfl
@[simp] theorem State.setDelay_draws (b : Byte) : (s.setDelay b).draws = s.draws := rfl
@[simp] theorem State.setDelay_reg (b : Byte) (q : Nibble) : (s.setDelay b).reg q = s.reg q := rfl
@[simp] theorem State.setDelay_memRead (b : Byte) (q : Addr) : (s.setDelay b).memRead q = s.memRead q := rfl
@[simp] theorem State.setDelay_ea (b : Byte) (q : Nat) : (s.setDelay b).ea q = s.ea q := rfl
@[simp] theorem State.setDelay_keyDown (b : Byte) (q : Nibble) : (s.setDelay b).keyDown q = s.keyDown q := rfl
@[simp] theorem State.setDelay_pixel (b : Byte) (px py : Nat) : (s.setDelay b).pixel px py = s.pixel px py := rfl

/-! ### `State.setSound` -/

@[simp] theorem State.setSound_V (b : Byte) : (s.setSound b).V = s.V := rfl
@[simp] theorem State.setSound_I (b : Byte) : (s.setSound b).I = s.I := rfl
@[simp] theorem State.setSound_pc (b : Byte) : (s.setSound b).pc = s.pc := rfl
@[simp] theorem State.setSound_mem (b : Byte) : (s.setSound b).mem = s.mem := rfl
@[simp] theorem State.setSound_disp (b : Byte) : (s.setSound b).disp = s.disp := rfl
@[simp] theorem State.setSound_stack (b : Byte) : (s.setSound b).stack = s.stack := rfl
@[simp] theorem State.setSound_sp (b : Byte) : (s.setSound b).sp = s.sp := rfl
@[simp] theorem State.setSound_delay (b : Byte) : (s.setSound b).delay = s.delay := rfl
@[simp] theorem State.setSound_sound (b : Byte) : (s.setSound b).sound = b := rfl
@[simp] theorem State.setSound_key (b : Byte) : (s.setSound b).key = s.key := rfl
@[simp] theorem State.setSound_runState (b : Byte) : (s.setSound b).runState = s.runState := rfl
@[simp] theorem State.setSound_waitReg (b : Byte) : (s.setSound b).waitReg = s.waitReg := rfl
@[simp] theorem State.setSound_haltCause (b : Byte) : (s.setSound b).haltCause = s.haltCause := rfl
@[simp] theorem State.setSound_tickPending (b : Byte) : (s.setSound b).tickPending = s.tickPending := rfl
@[simp] theorem State.setSound_redrawPending (b : Byte) : (s.setSound b).redrawPending = s.redrawPending := rfl
@[simp] theorem State.setSound_beepPending (b : Byte) : (s.setSound b).beepPending = s.beepPending := rfl
@[simp] theorem State.setSound_draws (b : Byte) : (s.setSound b).draws = s.draws := rfl
@[simp] theorem State.setSound_reg (b : Byte) (q : Nibble) : (s.setSound b).reg q = s.reg q := rfl
@[simp] theorem State.setSound_memRead (b : Byte) (q : Addr) : (s.setSound b).memRead q = s.memRead q := rfl
@[simp] theorem State.setSound_ea (b : Byte) (q : Nat) : (s.setSound b).ea q = s.ea q := rfl
@[simp] theorem State.setSound_keyDown (b : Byte) (q : Nibble) : (s.setSound b).keyDown q = s.keyDown q := rfl
@[simp] theorem State.setSound_pixel (b : Byte) (px py : Nat) : (s.setSound b).pixel px py = s.pixel px py := rfl

/-! ### `State.startWait` -/

@[simp] theorem State.startWait_V (x : Nibble) : (s.startWait x).V = s.V := rfl
@[simp] theorem State.startWait_I (x : Nibble) : (s.startWait x).I = s.I := rfl
@[simp] theorem State.startWait_pc (x : Nibble) : (s.startWait x).pc = s.pc := rfl
@[simp] theorem State.startWait_mem (x : Nibble) : (s.startWait x).mem = s.mem := rfl
@[simp] theorem State.startWait_disp (x : Nibble) : (s.startWait x).disp = s.disp := rfl
@[simp] theorem State.startWait_stack (x : Nibble) : (s.startWait x).stack = s.stack := rfl
@[simp] theorem State.startWait_sp (x : Nibble) : (s.startWait x).sp = s.sp := rfl
@[simp] theorem State.startWait_delay (x : Nibble) : (s.startWait x).delay = s.delay := rfl
@[simp] theorem State.startWait_sound (x : Nibble) : (s.startWait x).sound = s.sound := rfl
@[simp] theorem State.startWait_key (x : Nibble) : (s.startWait x).key = s.key := rfl
@[simp] theorem State.startWait_runState (x : Nibble) : (s.startWait x).runState = .waitingForKey := rfl
@[simp] theorem State.startWait_waitReg (x : Nibble) : (s.startWait x).waitReg = x := rfl
@[simp] theorem State.startWait_haltCause (x : Nibble) : (s.startWait x).haltCause = s.haltCause := rfl
@[simp] theorem State.startWait_tickPending (x : Nibble) : (s.startWait x).tickPending = s.tickPending := rfl
@[simp] theorem State.startWait_redrawPending (x : Nibble) : (s.startWait x).redrawPending = s.redrawPending := rfl
@[simp] theorem State.startWait_beepPending (x : Nibble) : (s.startWait x).beepPending = s.beepPending := rfl
@[simp] theorem State.startWait_draws (x : Nibble) : (s.startWait x).draws = s.draws := rfl
@[simp] theorem State.startWait_reg (x : Nibble) (q : Nibble) : (s.startWait x).reg q = s.reg q := rfl
@[simp] theorem State.startWait_memRead (x : Nibble) (q : Addr) : (s.startWait x).memRead q = s.memRead q := rfl
@[simp] theorem State.startWait_ea (x : Nibble) (q : Nat) : (s.startWait x).ea q = s.ea q := rfl
@[simp] theorem State.startWait_keyDown (x : Nibble) (q : Nibble) : (s.startWait x).keyDown q = s.keyDown q := rfl
@[simp] theorem State.startWait_pixel (x : Nibble) (px py : Nat) : (s.startWait x).pixel px py = s.pixel px py := rfl

/-! ### `State.setFlag` -/

@[simp] theorem State.setFlag_V (f : Bool) : (s.setFlag f).V = s.V.set 15 (flagByte f) := rfl
@[simp] theorem State.setFlag_I (f : Bool) : (s.setFlag f).I = s.I := rfl
@[simp] theorem State.setFlag_pc (f : Bool) : (s.setFlag f).pc = s.pc := rfl
@[simp] theorem State.setFlag_mem (f : Bool) : (s.setFlag f).mem = s.mem := rfl
@[simp] theorem State.setFlag_disp (f : Bool) : (s.setFlag f).disp = s.disp := rfl
@[simp] theorem State.setFlag_stack (f : Bool) : (s.setFlag f).stack = s.stack := rfl
@[simp] theorem State.setFlag_sp (f : Bool) : (s.setFlag f).sp = s.sp := rfl
@[simp] theorem State.setFlag_delay (f : Bool) : (s.setFlag f).delay = s.delay := rfl
@[simp] theorem State.setFlag_sound (f : Bool) : (s.setFlag f).sound = s.sound := rfl
@[simp] theorem State.setFlag_key (f : Bool) : (s.setFlag f).key = s.key := rfl
@[simp] theorem State.setFlag_runState (f : Bool) : (s.setFlag f).runState = s.runState := rfl
@[simp] theorem State.setFlag_waitReg (f : Bool) : (s.setFlag f).waitReg = s.waitReg := rfl
@[simp] theorem State.setFlag_haltCause (f : Bool) : (s.setFlag f).haltCause = s.haltCause := rfl
@[simp] theorem State.setFlag_tickPending (f : Bool) : (s.setFlag f).tickPending = s.tickPending := rfl
@[simp] theorem State.setFlag_redrawPending (f : Bool) : (s.setFlag f).redrawPending = s.redrawPending := rfl
@[simp] theorem State.setFlag_beepPending (f : Bool) : (s.setFlag f).beepPending = s.beepPending := rfl
@[simp] theorem State.setFlag_draws (f : Bool) : (s.setFlag f).draws = s.draws := rfl
@[simp] theorem State.setFlag_memRead (f : Bool) (q : Addr) : (s.setFlag f).memRead q = s.memRead q := rfl
@[simp] theorem State.setFlag_ea (f : Bool) (q : Nat) : (s.setFlag f).ea q = s.ea q := rfl
@[simp] theorem State.setFlag_keyDown (f : Bool) (q : Nibble) : (s.setFlag f).keyDown q = s.keyDown q := rfl
@[simp] theorem State.setFlag_pixel (f : Bool) (px py : Nat) : (s.setFlag f).pixel px py = s.pixel px py := rfl

/-! ### `State.setResult` -/

@[simp] theorem State.setResult_V (x : Nibble) (b : Byte) (f : Bool) : (s.setResult x b f).V = (s.V.set x.toNat b x.isLt).set 15 (flagByte f) := rfl
@[simp] theorem State.setResult_I (x : Nibble) (b : Byte) (f : Bool) : (s.setResult x b f).I = s.I := rfl
@[simp] theorem State.setResult_pc (x : Nibble) (b : Byte) (f : Bool) : (s.setResult x b f).pc = s.pc := rfl
@[simp] theorem State.setResult_mem (x : Nibble) (b : Byte) (f : Bool) : (s.setResult x b f).mem = s.mem := rfl
@[simp] theorem State.setResult_disp (x : Nibble) (b : Byte) (f : Bool) : (s.setResult x b f).disp = s.disp := rfl
@[simp] theorem State.setResult_stack (x : Nibble) (b : Byte) (f : Bool) : (s.setResult x b f).stack = s.stack := rfl
@[simp] theorem State.setResult_sp (x : Nibble) (b : Byte) (f : Bool) : (s.setResult x b f).sp = s.sp := rfl
@[simp] theorem State.setResult_delay (x : Nibble) (b : Byte) (f : Bool) : (s.setResult x b f).delay = s.delay := rfl
@[simp] theorem State.setResult_sound (x : Nibble) (b : Byte) (f : Bool) : (s.setResult x b f).sound = s.sound := rfl
@[simp] theorem State.setResult_key (x : Nibble) (b : Byte) (f : Bool) : (s.setResult x b f).key = s.key := rfl
@[simp] theorem State.setResult_runState (x : Nibble) (b : Byte) (f : Bool) : (s.setResult x b f).runState = s.runState := rfl
@[simp] theorem State.setResult_waitReg (x : Nibble) (b : Byte) (f : Bool) : (s.setResult x b f).waitReg = s.waitReg := rfl
@[simp] theorem State.setResult_haltCause (x : Nibble) (b : Byte) (f : Bool) : (s.setResult x b f).haltCause = s.haltCause := rfl
@[simp] theorem State.setResult_tickPending (x : Nibble) (b : Byte) (f : Bool) : (s.setResult x b f).tickPending = s.tickPending := rfl
@[simp] theorem State.setResult_redrawPending (x : Nibble) (b : Byte) (f : Bool) : (s.setResult x b f).redrawPending = s.redrawPending := rfl
@[simp] theorem State.setResult_beepPending (x : Nibble) (b : Byte) (f : Bool) : (s.setResult x b f).beepPending = s.beepPending := rfl
@[simp] theorem State.setResult_draws (x : Nibble) (b : Byte) (f : Bool) : (s.setResult x b f).draws = s.draws := rfl
@[simp] theorem State.setResult_memRead (x : Nibble) (b : Byte) (f : Bool) (q : Addr) : (s.setResult x b f).memRead q = s.memRead q := rfl
@[simp] theorem State.setResult_ea (x : Nibble) (b : Byte) (f : Bool) (q : Nat) : (s.setResult x b f).ea q = s.ea q := rfl
@[simp] theorem State.setResult_keyDown (x : Nibble) (b : Byte) (f : Bool) (q : Nibble) : (s.setResult x b f).keyDown q = s.keyDown q := rfl
@[simp] theorem State.setResult_pixel (x : Nibble) (b : Byte) (f : Bool) (px py : Nat) : (s.setResult x b f).pixel px py = s.pixel px py := rfl

end Sys2Proof.Machine
end

