-- ==== Sys2Proof/Laws/Memory.lean ====
section
/-!
SUPPORT. The laws of memory: a read after a write, the canonical form kept by every memory operation, and equal memories
being equal lists.
-/

namespace Sys2Proof.Machine

/-! ### Reading -/

theorem Memory.get_erase (m : Memory) (a q : Nat) :
    Memory.get (Memory.erase m a) q = if q = a then Memory.initial q else Memory.get m q := by
  induction m with
  | nil => simp [Memory.erase, Memory.get]
  | cons c rest ih =>
    obtain ⟨k, b⟩ := c
    rw [Memory.erase] at ih ⊢
    by_cases hk : k = a
    · simp only [List.filter, hk, ne_eq, not_true_eq_false, decide_false, ih, Memory.get]
      split <;> rfl
    · by_cases hq : q = k
      · simp [hk, Memory.get, hq]
      · simp only [List.filter, ne_eq, hk, not_false_eq_true, decide_true, Memory.get, hq, if_false]
        exact ih

theorem Memory.erase_ne (m : Memory) (a : Nat) : ∀ c ∈ Memory.erase m a, c.1 ≠ a := by
  simp [Memory.erase]

theorem Memory.get_insert (m : Memory) (a : Nat) (b : Byte) (q : Nat) (h : ∀ c ∈ m, c.1 ≠ a) :
    Memory.get (Memory.insert m a b) q = if q = a then b else Memory.get m q := by
  induction m with
  | nil => simp [Memory.insert, Memory.get]
  | cons c rest ih =>
    obtain ⟨k, c⟩ := c
    have hk : k ≠ a := h (k, c) (by simp)
    have ih := ih (fun c hc => h c (List.mem_cons_of_mem _ hc))
    rw [Memory.insert]
    split
    · simp [Memory.get]
    · simp only [Memory.get, ih]
      by_cases hq : q = k
      · simp [hq, hk]
      · simp [hq]

/-- A read after a write, of the same key and of any other. -/
theorem Memory.get_set (m : Memory) (a : Nat) (b : Byte) (q : Nat) :
    Memory.get (Memory.set m a b) q = if q = a then b else Memory.get m q := by
  rw [Memory.set]
  split
  case isTrue h => rw [Memory.get_erase]; split <;> simp_all
  case isFalse =>
    rw [Memory.get_insert _ _ _ _ (Memory.erase_ne m a), Memory.get_erase]
    split <;> rfl

/-- A byte read after a byte written. -/
theorem State.memRead_memWrite (s : State) (a q : Addr) (b : Byte) :
    (s.memWrite a b).memRead q = if q = a then b else s.memRead q := by
  simp only [State.memRead, State.memWrite_mem, Memory.get_set, BitVec.toNat_inj]

/-! ### The canonical form -/

theorem Memory.wfFrom_mono {lo lo' : Nat} (m : Memory) (h : Memory.wfFrom lo m = true) (hl : lo' ≤ lo) :
    Memory.wfFrom lo' m = true := by
  cases m with
  | nil => rfl
  | cons c rest =>
    simp only [Memory.wfFrom, Bool.and_eq_true, decide_eq_true_eq] at h ⊢
    exact ⟨⟨⟨by omega, h.1.1.2⟩, h.1.2⟩, h.2⟩

theorem Memory.get_of_lt {lo : Nat} (m : Memory) (h : Memory.wfFrom lo m = true) (q : Nat) (hq : q < lo) :
    Memory.get m q = Memory.initial q := by
  induction m generalizing lo with
  | nil => rfl
  | cons c rest ih =>
    simp only [Memory.wfFrom, Bool.and_eq_true, decide_eq_true_eq] at h
    rw [Memory.get, if_neg (by omega)]
    exact ih h.2 (by omega)

theorem Memory.wfFrom_filter {lo : Nat} (m : Memory) (p : Host.Cell → Bool) (h : Memory.wfFrom lo m = true) :
    Memory.wfFrom lo (m.filter p) = true := by
  induction m generalizing lo with
  | nil => rfl
  | cons c rest ih =>
    simp only [Memory.wfFrom, Bool.and_eq_true, decide_eq_true_eq] at h
    rw [List.filter_cons]
    split
    · simp only [Memory.wfFrom, Bool.and_eq_true, decide_eq_true_eq]
      exact ⟨h.1, ih h.2⟩
    · exact ih (Memory.wfFrom_mono _ h.2 (by omega))

theorem Memory.wfFrom_insert {lo : Nat} (m : Memory) (a : Nat) (b : Byte) (h : Memory.wfFrom lo m = true)
    (hlo : lo ≤ a) (ha : a < 4096) (hb : b ≠ Memory.initial a) (hne : ∀ c ∈ m, c.1 ≠ a) :
    Memory.wfFrom lo (Memory.insert m a b) = true := by
  induction m generalizing lo with
  | nil => simp [Memory.insert, Memory.wfFrom, hlo, ha, hb]
  | cons c rest ih =>
    obtain ⟨k, c⟩ := c
    have hk : k ≠ a := hne (k, c) (by simp)
    simp only [Memory.wfFrom, Bool.and_eq_true, decide_eq_true_eq] at h
    rw [Memory.insert]
    split
    · simp only [Memory.wfFrom, Bool.and_eq_true, decide_eq_true_eq]
      exact ⟨⟨⟨hlo, ha⟩, hb⟩, ⟨⟨by omega, h.1.1.2⟩, h.1.2⟩, h.2⟩
    · simp only [Memory.wfFrom, Bool.and_eq_true, decide_eq_true_eq]
      exact ⟨h.1, ih h.2 (by omega) (fun c hc => hne c (List.mem_cons_of_mem _ hc))⟩

/-- Setting a byte keeps the canonical form. -/
theorem Memory.wf_set (m : Memory) (a : Nat) (b : Byte) (h : Memory.wf m = true) (ha : a < 4096) :
    Memory.wf (Memory.set m a b) = true := by
  rw [Memory.wf, Memory.set]
  split
  · exact Memory.wfFrom_filter m _ h
  · next hb =>
    exact Memory.wfFrom_insert _ a b (Memory.wfFrom_filter m _ h) (Nat.zero_le a) ha hb (Memory.erase_ne m a)

/-- `MemWrite` keeps the canonical form. -/
theorem State.memWrite_wf (s : State) (a : Addr) (b : Byte) (h : Memory.wf s.mem = true) :
    Memory.wf (s.memWrite a b).mem = true :=
  Memory.wf_set _ _ _ h a.isLt

/-- Reset memory is in canonical form. -/
theorem State.reset_wf : Memory.wf State.reset.mem = true := rfl

theorem Memory.eq_of_get_from {lo : Nat} (m n : Memory) (hm : Memory.wfFrom lo m = true)
    (hn : Memory.wfFrom lo n = true) (h : ∀ q < 4096, Memory.get m q = Memory.get n q) : m = n := by
  induction m generalizing lo n with
  | nil =>
    cases n with
    | nil => rfl
    | cons c rest =>
      simp only [Memory.wfFrom, Bool.and_eq_true, decide_eq_true_eq] at hn
      have := h c.1 hn.1.1.2
      simp only [Memory.get, if_true] at this
      exact absurd this.symm hn.1.2
  | cons c rest ih =>
    obtain ⟨k, b⟩ := c
    simp only [Memory.wfFrom, Bool.and_eq_true, decide_eq_true_eq] at hm
    cases n with
    | nil =>
      have := h k hm.1.1.2
      simp only [Memory.get, if_true] at this
      exact absurd this hm.1.2
    | cons d rest' =>
      obtain ⟨l, c⟩ := d
      simp only [Memory.wfFrom, Bool.and_eq_true, decide_eq_true_eq] at hn
      have hkl : k = l := by
        rcases Nat.lt_trichotomy k l with hlt | heq | hgt
        · have h1 := h k hm.1.1.2
          rw [Memory.get, if_pos rfl, Memory.get, if_neg (by omega),
            Memory.get_of_lt rest' hn.2 k (by omega)] at h1
          exact absurd h1 hm.1.2
        · exact heq
        · have h1 := h l hn.1.1.2
          rw [Memory.get, if_neg (by omega), Memory.get_of_lt rest hm.2 l (by omega), Memory.get, if_pos rfl] at h1
          exact absurd h1.symm hn.1.2
      subst hkl
      have hbc : b = c := by simpa [Memory.get] using h k hm.1.1.2
      subst hbc
      congr 1
      refine ih rest' hm.2 hn.2 (fun q hq => ?_)
      by_cases hqk : q = k
      · rw [hqk, Memory.get_of_lt rest hm.2 k (by omega), Memory.get_of_lt rest' hn.2 k (by omega)]
      · simpa [Memory.get, hqk] using h q hq

/-- Memories in canonical form that read alike are the same list. -/
theorem Memory.eq_of_get (m n : Memory) (hm : Memory.wf m = true) (hn : Memory.wf n = true)
    (h : ∀ q < 4096, Memory.get m q = Memory.get n q) : m = n :=
  Memory.eq_of_get_from m n hm hn h

/-! ### A run of bytes as cells -/

theorem Memory.get_cellsFrom (a : Nat) (bs : List Byte) (q : Nat) :
    Memory.get (Memory.cellsFrom a bs) q =
      if h : a ≤ q ∧ q - a < bs.length then bs[q - a] else Memory.initial q := by
  induction bs generalizing a with
  | nil => simp [Memory.cellsFrom, Memory.get]
  | cons b bs ih =>
    rcases Nat.lt_trichotomy q a with hlt | heq | hgt
    · have h1 : ¬ (a ≤ q) := by omega
      have h2 : ¬ (a + 1 ≤ q) := by omega
      rw [Memory.cellsFrom]
      split
      · rw [ih]; simp [h1, h2]
      · rw [Memory.get, if_neg (by omega), ih]; simp [h1, h2]
    · subst heq
      rw [Memory.cellsFrom]
      split
      · next hb => rw [ih]; simp [hb]
      · simp [Memory.get]
    · have h1 : q - a = (q - (a + 1)) + 1 := by omega
      have key : Memory.get (Memory.cellsFrom (a + 1) bs) q =
          if h : a ≤ q ∧ q - a < (b :: bs).length then (b :: bs)[q - a] else Memory.initial q := by
        rw [ih]
        by_cases hl : q - (a + 1) < bs.length
        · rw [dif_pos ⟨by omega, hl⟩, dif_pos ⟨by omega, by simp; omega⟩]
          simp [h1]
        · rw [dif_neg (by omega), dif_neg (by simp; omega)]
      rw [Memory.cellsFrom]
      split
      · exact key
      · rw [Memory.get, if_neg (by omega)]; exact key

theorem Memory.wfFrom_cellsFrom (a : Nat) (bs : List Byte) (h : a + bs.length ≤ 4096) :
    Memory.wfFrom a (Memory.cellsFrom a bs) = true := by
  induction bs generalizing a with
  | nil => rfl
  | cons b bs ih =>
    simp only [List.length_cons] at h
    have ih := ih (a + 1) (by omega)
    rw [Memory.cellsFrom]
    split
    · exact Memory.wfFrom_mono _ ih (by omega)
    · next hb =>
      simp only [Memory.wfFrom, Bool.and_eq_true, decide_eq_true_eq]
      exact ⟨⟨⟨Nat.le_refl a, by omega⟩, hb⟩, ih⟩

theorem Memory.wfFrom_append {lo mid : Nat} (m n : Memory) (hm : Memory.wfFrom lo m = true)
    (hb : ∀ c ∈ m, c.1 < mid) (hl : lo ≤ mid) (hn : Memory.wfFrom mid n = true) :
    Memory.wfFrom lo (m ++ n) = true := by
  induction m generalizing lo with
  | nil => exact Memory.wfFrom_mono n hn hl
  | cons c rest ih =>
    simp only [Memory.wfFrom, Bool.and_eq_true, decide_eq_true_eq] at hm
    rw [List.cons_append]
    simp only [Memory.wfFrom, Bool.and_eq_true, decide_eq_true_eq]
    exact ⟨hm.1, ih hm.2 (fun c hc => hb c (List.mem_cons_of_mem _ hc)) (hb c (by simp))⟩

theorem Memory.get_append_low (m n : Memory) (mid q : Nat) :
    Memory.get (m.filter (fun c => decide (c.1 < mid)) ++ n) q =
      if q < mid ∧ q ∈ m.map Prod.fst then Memory.get m q else Memory.get n q := by
  induction m with
  | nil => simp
  | cons c rest ih =>
    obtain ⟨k, b⟩ := c
    by_cases hk : k < mid
    · by_cases hq : q = k
      · subst hq; simp [Memory.get, hk]
      · simp [Memory.get, hk, hq, ih]
    · by_cases hq : q = k
      · subst hq; simp [hk, ih]
      · simp [Memory.get, hk, hq, ih]

theorem Memory.get_of_not_listed (m : Memory) (q : Nat) (h : q ∉ m.map Prod.fst) :
    Memory.get m q = Memory.initial q := by
  induction m with
  | nil => rfl
  | cons c rest ih =>
    simp only [List.map_cons, List.mem_cons, not_or] at h
    rw [Memory.get, if_neg h.1, ih h.2]

end Sys2Proof.Machine
end

