-- ==== Sys2Proof/Laws/Ops.lean ====
section
/-!
SUPPORT. One spec lemma per shared operation, which says once everything it can do; later proofs cite it instead of
unfolding the operation.
-/

namespace Sys2Proof.Machine

/-! ### Registers, keys and flags -/

/-- A register read after a register written. -/
theorem State.reg_setReg (s : State) (x r : Nibble) (b : Byte) :
    (s.setReg x b).reg r = if r = x then b else s.reg r := by
  simp only [State.reg, State.setReg_V, Vector.getElem_set, BitVec.toNat_inj]
  by_cases h : x = r
  · simp [h]
  · rw [if_neg h, if_neg (fun e => h e.symm)]

/-- A register read after a flag written. -/
theorem State.reg_setFlag (s : State) (f : Bool) (r : Nibble) :
    (s.setFlag f).reg r = if r = 0xF then flagByte f else s.reg r :=
  State.reg_setReg s flagReg r (flagByte f)

/-- A register read after a result and its flag: the flag wins at 0xF. -/
theorem State.reg_setResult (s : State) (x : Nibble) (b : Byte) (f : Bool) (r : Nibble) :
    (s.setResult x b f).reg r = if r = 0xF then flagByte f else if r = x then b else s.reg r := by
  rw [State.setResult, State.reg_setFlag, State.reg_setReg]

/-- A key read after a key written. -/
theorem State.keyDown_putKey (s : State) (k j : Nibble) (p : Bool) :
    (s.putKey k p).keyDown j = if j = k then p else s.keyDown j := by
  simp only [State.keyDown, State.putKey_key, Vector.getElem_set, BitVec.toNat_inj]
  by_cases h : k = j
  · simp [h]
  · rw [if_neg h, if_neg (fun e => h e.symm)]

/-- A register number below 16 as an index of the register file. -/
theorem State.reg_ofNat (s : State) (k : Nat) (h : k < 16) : s.reg (BitVec.ofNat 4 k) = s.V[k] := by
  simp only [State.reg, BitVec.toNat_ofNat]
  congr 1
  omega

/-- Two states with the same registers have the same register file. -/
theorem State.V_ext {s t : State} (h : ∀ r, s.reg r = t.reg r) : s.V = t.V := by
  apply Vector.ext
  intro k hk
  rw [← State.reg_ofNat s k hk, ← State.reg_ofNat t k hk, h]

/-! ### Call stack -/

/-- `Push`: at 16 entries it overflows, below that it writes the next free entry. -/
theorem State.push_eq (s : State) (v : Word) :
    (s.sp.val = 16 ∧ s.push v = .error .stackOverflow) ∨
    ∃ k : Fin 16, s.sp.val = k.val ∧
      s.push v = .ok { s with stack := s.stack.set k.val v, sp := k.succ } := by
  rw [State.push]
  split
  case isTrue h => exact .inr ⟨⟨s.sp.val, h⟩, rfl, rfl⟩
  case isFalse h => exact .inl ⟨by omega, rfl⟩

/-- `Pop`: at 0 entries it underflows, above that it reads the last entry, which keeps its value. -/
theorem State.pop_eq (s : State) :
    (s.sp.val = 0 ∧ s.pop = .error .stackUnderflow) ∨
    ∃ k : Fin 16, s.sp.val = k.val + 1 ∧ s.pop = .ok (s.stack[k.val], { s with sp := k.castSucc }) := by
  rw [State.pop]
  split
  case isTrue h => exact .inl ⟨h, rfl⟩
  case isFalse h => exact .inr ⟨⟨s.sp.val - 1, by omega⟩, by simp; omega, rfl⟩

/-! ### Effective addresses and runs -/

theorem State.ea_toNat (s : State) (k : Nat) : (s.ea k).toNat = (s.I.toNat + k) % 4096 := by
  simp [State.ea]

/-- Offsets below 4096 give different addresses. -/
theorem State.ea_inj (s : State) {j k : Nat} (hj : j < 4096) (hk : k < 4096) (h : s.ea j = s.ea k) : j = k := by
  have h : (s.I.toNat + j) % 4096 = (s.I.toNat + k) % 4096 := by rw [← State.ea_toNat, ← State.ea_toNat, h]
  omega

/-- No address of the run lies below 0x200. -/
theorem State.lowAddr_eq_none (s : State) (n : Nat) :
    s.lowAddr n = none ↔ ∀ k < n, Config.progBase ≤ (s.ea k).toNat := by
  simp [State.lowAddr]

/-- The address at the lowest offending offset. -/
theorem State.lowAddr_eq_some (s : State) (n k : Nat) (hk : k < n) (hlow : (s.ea k).toNat < Config.progBase)
    (hj : ∀ j < k, Config.progBase ≤ (s.ea j).toNat) : s.lowAddr n = some (s.ea k) := by
  rw [State.lowAddr, List.find?_eq_some_iff_append]
  refine ⟨by simpa using hlow, (List.range k).map s.ea, (List.range' (k + 1) (n - (k + 1))).map s.ea, ?_, ?_⟩
  · have hsplit : List.range n = List.range k ++ k :: List.range' (k + 1) (n - (k + 1)) := by
      rw [List.range_eq_range', List.range_eq_range', ← List.range'_succ]
      have := List.range'_append (s := 0) (m := k) (n := n - (k + 1) + 1) (step := 1)
      simp only [Nat.one_mul, Nat.zero_add] at this
      rw [this]
      congr 1
      omega
    rw [hsplit]; simp
  · intro a ha
    simp only [List.mem_map, List.mem_range] at ha
    obtain ⟨j, hjk, rfl⟩ := ha
    simpa using hj j hjk

/-- What a found low address is: the one at the lowest offset of the run that lies below 0x200. -/
theorem State.lowAddr_some (s : State) (n : Nat) (a : Addr) (h : s.lowAddr n = some a) :
    a.toNat < Config.progBase ∧ ∃ k < n, a = s.ea k ∧ ∀ j < k, Config.progBase ≤ (s.ea j).toNat := by
  have hex : ∃ k, k < n ∧ (s.ea k).toNat < Config.progBase := by
    by_contra hno
    rw [(s.lowAddr_eq_none n).mpr fun k hk => Nat.le_of_not_lt fun hl => hno ⟨k, hk, hl⟩] at h
    cases h
  classical
  have hj : ∀ j < Nat.find hex, Config.progBase ≤ (s.ea j).toNat := fun j hlt =>
    Nat.le_of_not_lt fun hl => Nat.find_min hex hlt ⟨hlt.trans (Nat.find_spec hex).1, hl⟩
  rw [s.lowAddr_eq_some n _ (Nat.find_spec hex).1 (Nat.find_spec hex).2 hj] at h
  cases h
  exact ⟨(Nat.find_spec hex).2, _, (Nat.find_spec hex).1, rfl, hj⟩

/-- A run of writes changes memory only. -/
theorem State.writeRun_eq (s : State) (k : Nat) (bs : List Byte) :
    s.writeRun k bs = { s with mem := (s.writeRun k bs).mem } := by
  induction bs generalizing s k with
  | nil => rfl
  | cons b bs ih =>
    rw [State.writeRun, ih]
    rfl

/-- A run of writes leaves every address outside it alone. -/
theorem State.memRead_writeRun_other (s : State) (k : Nat) (bs : List Byte) (q : Addr)
    (h : ∀ j < bs.length, q ≠ s.ea (k + j)) : (s.writeRun k bs).memRead q = s.memRead q := by
  induction bs generalizing s k with
  | nil => rfl
  | cons b bs ih =>
    rw [State.writeRun, ih, State.memRead_memWrite, if_neg]
    · simpa using h 0 (by simp)
    · intro j hj
      have := h (j + 1) (by simpa using hj)
      rwa [show k + (j + 1) = k + 1 + j by omega] at this

/-- A run of writes puts each byte at its effective address. -/
theorem State.memRead_writeRun (s : State) (k : Nat) (bs : List Byte) (hlen : k + bs.length ≤ 4096)
    (j : Nat) (hj : j < bs.length) : (s.writeRun k bs).memRead (s.ea (k + j)) = bs[j] := by
  induction bs generalizing s k j with
  | nil => simp at hj
  | cons b bs ih =>
    simp only [List.length_cons] at hlen hj
    rw [State.writeRun]
    cases j with
    | zero =>
      rw [State.memRead_writeRun_other _ _ _ _ (fun j hj he => ?_), State.memRead_memWrite, if_pos (by simp)]
      · simp
      · have := State.ea_inj s (by omega) (by omega) (show s.ea (k + 0) = s.ea (k + 1 + j) from he)
        omega
    | succ j =>
      have := ih (s.memWrite (s.ea k) b) (k + 1) (by omega) j (by omega)
      rw [show k + (j + 1) = k + 1 + j by omega]
      simpa using this

/-- A run of writes keeps the canonical form of memory. -/
theorem State.writeRun_wf (s : State) (k : Nat) (bs : List Byte) (h : Memory.wf s.mem = true) :
    Memory.wf (s.writeRun k bs).mem = true := by
  induction bs generalizing s k with
  | nil => exact h
  | cons b bs ih => exact ih _ _ (State.memWrite_wf s _ b h)

/-- A store: it reports the lowest offending address under the policy `fault`, else it writes its run. -/
theorem State.store_eq (s : State) (policy : LowStorePolicy) (bytes : List Byte) :
    (∃ a, policy = .fault ∧ s.lowAddr bytes.length = some a ∧ s.store policy bytes = .error (.storeProtected a)) ∨
    ((policy = .fault → s.lowAddr bytes.length = none) ∧ s.store policy bytes = .ok (s.writeRun 0 bytes)) := by
  cases policy with
  | allow => exact .inr ⟨by simp, rfl⟩
  | fault =>
    cases h : s.lowAddr bytes.length with
    | none => exact .inr ⟨fun _ => rfl, by simp [State.store, h]⟩
    | some a => exact .inl ⟨a, rfl, rfl, by simp [State.store, h]⟩

theorem State.loadRegs_V (s : State) (k : Nat) (bs : List Byte) (j : Nat) (hj : j < 16) :
    (s.loadRegs k bs).V[j] = if h : k ≤ j ∧ j - k < bs.length then bs[j - k] else s.V[j] := by
  induction bs generalizing s k with
  | nil => simp [State.loadRegs]
  | cons b bs ih =>
    rw [State.loadRegs, ih]
    by_cases hlt : k + 1 ≤ j
    · have h1 : j - k = (j - (k + 1)) + 1 := by omega
      by_cases hl : j - (k + 1) < bs.length
      · rw [dif_pos ⟨hlt, hl⟩, dif_pos ⟨by omega, by simp; omega⟩]; simp [h1]
      · rw [dif_neg (by omega), dif_neg (by simp; omega)]
        exact Vector.getElem_setIfInBounds_ne hj (by omega)
    · rw [dif_neg (by omega)]
      by_cases he : k = j
      · subst he; rw [dif_pos (by simp)]; simp
      · rw [dif_neg (by omega)]
        exact Vector.getElem_setIfInBounds_ne hj (by omega)

/-- A load of registers changes registers only. -/
theorem State.loadRegs_eq (s : State) (k : Nat) (bs : List Byte) :
    s.loadRegs k bs = { s with V := (s.loadRegs k bs).V } := by
  induction bs generalizing s k with
  | nil => rfl
  | cons b bs ih =>
    rw [State.loadRegs, ih]

/-- A register after a load from register 0 up: the byte at its place, or its old value past the run. -/
theorem State.reg_loadRegs (s : State) (bs : List Byte) (r : Nibble) :
    (s.loadRegs 0 bs).reg r = if h : r.toNat < bs.length then bs[r.toNat] else s.reg r := by
  simp [State.reg, State.loadRegs_V]

theorem State.readRun_length (s : State) (n : Nat) : (s.readRun n).length = n := by simp [State.readRun]

theorem State.readRun_get (s : State) (n k : Nat) (h : k < (s.readRun n).length) :
    (s.readRun n)[k] = s.memRead (s.ea k) := by simp [State.readRun]

theorem State.regRun_length (s : State) (x : Nibble) : (s.regRun x).length = x.toNat + 1 := by
  have : x.toNat < 16 := x.isLt
  simp [State.regRun]; omega

theorem State.regRun_get (s : State) (x : Nibble) (k : Nat) (h : k < (s.regRun x).length) :
    (s.regRun x)[k] = s.reg (BitVec.ofNat 4 k) := by
  have : x.toNat < 16 := x.isLt
  have hk : k < 16 := by rw [State.regRun_length] at h; omega
  rw [State.reg_ofNat s k hk]
  simp [State.regRun]

/-! ### Keypad, timers, waiting -/

/-- There is no least key exactly when none is pressed. -/
theorem State.leastKey_eq_none (s : State) : s.leastKey = none ↔ ∀ k, s.keyDown k = false := by
  simp only [State.leastKey, Option.map_eq_none_iff, List.findIdx?_eq_none_iff, State.keyDown, id]
  constructor
  · intro h k
    exact h _ (by simp)
  · intro h b hb
    obtain ⟨j, hj, rfl⟩ := List.getElem_of_mem hb
    simp only [Vector.length_toList] at hj
    simpa [BitVec.toNat_ofNat, Nat.mod_eq_of_lt hj] using h (BitVec.ofNat 4 j)

/-- The least key is pressed and no lower one is. -/
theorem State.leastKey_eq_some (s : State) (k : Nibble) :
    s.leastKey = some k ↔ s.keyDown k = true ∧ ∀ j < k, s.keyDown j = false := by
  have hk : k.toNat < 16 := k.isLt
  simp only [State.leastKey, Option.map_eq_some_iff, List.findIdx?_eq_some_iff_getElem, State.keyDown, id]
  constructor
  · rintro ⟨i, ⟨hi, hp, hlow⟩, rfl⟩
    simp only [Vector.length_toList] at hi
    refine ⟨by simpa [BitVec.toNat_ofNat, Nat.mod_eq_of_lt hi] using hp, fun j hj => ?_⟩
    have hj' : j.toNat < i := by
      have := BitVec.lt_def.mp hj
      simpa [Nat.mod_eq_of_lt hi] using this
    simpa using hlow j.toNat hj'
  · rintro ⟨hp, hlow⟩
    refine ⟨k.toNat, ⟨by simpa using hk, by simpa using hp, fun j hj => ?_⟩, by simp⟩
    have := hlow (BitVec.ofNat 4 j) (by rw [BitVec.lt_def]; simp; omega)
    simpa [BitVec.toNat_ofNat, Nat.mod_eq_of_lt (show j < 16 by omega)] using this

/-- The timer phase changes the timers and their two latches only. -/
theorem State.timerPhase_eq (s : State) :
    s.timerPhase = { s with
      tickPending := false
      delay := s.timerPhase.delay
      sound := s.timerPhase.sound
      beepPending := s.timerPhase.beepPending } := by
  rw [State.timerPhase]
  split
  · rfl
  · cases s; simp_all

/-! What the timer phase leaves alone. -/

@[simp] theorem State.timerPhase_V (s : State) : s.timerPhase.V = s.V := by rw [State.timerPhase_eq]
@[simp] theorem State.timerPhase_I (s : State) : s.timerPhase.I = s.I := by rw [State.timerPhase_eq]
@[simp] theorem State.timerPhase_pc (s : State) : s.timerPhase.pc = s.pc := by rw [State.timerPhase_eq]
@[simp] theorem State.timerPhase_mem (s : State) : s.timerPhase.mem = s.mem := by rw [State.timerPhase_eq]
@[simp] theorem State.timerPhase_disp (s : State) : s.timerPhase.disp = s.disp := by rw [State.timerPhase_eq]
@[simp] theorem State.timerPhase_stack (s : State) : s.timerPhase.stack = s.stack := by rw [State.timerPhase_eq]
@[simp] theorem State.timerPhase_sp (s : State) : s.timerPhase.sp = s.sp := by rw [State.timerPhase_eq]
@[simp] theorem State.timerPhase_key (s : State) : s.timerPhase.key = s.key := by rw [State.timerPhase_eq]
@[simp] theorem State.timerPhase_runState (s : State) : s.timerPhase.runState = s.runState := by rw [State.timerPhase_eq]
@[simp] theorem State.timerPhase_waitReg (s : State) : s.timerPhase.waitReg = s.waitReg := by rw [State.timerPhase_eq]
@[simp] theorem State.timerPhase_haltCause (s : State) : s.timerPhase.haltCause = s.haltCause := by rw [State.timerPhase_eq]
@[simp] theorem State.timerPhase_redrawPending (s : State) : s.timerPhase.redrawPending = s.redrawPending := by rw [State.timerPhase_eq]
@[simp] theorem State.timerPhase_draws (s : State) : s.timerPhase.draws = s.draws := by rw [State.timerPhase_eq]
@[simp] theorem State.timerPhase_tickPending (s : State) : s.timerPhase.tickPending = false := by rw [State.timerPhase_eq]
@[simp] theorem State.timerPhase_reg (s : State) (r : Nibble) : s.timerPhase.reg r = s.reg r := by simp [State.reg]
@[simp] theorem State.timerPhase_memRead (s : State) (a : Addr) : s.timerPhase.memRead a = s.memRead a := by simp [State.memRead]
@[simp] theorem State.timerPhase_ea (s : State) (k : Nat) : s.timerPhase.ea k = s.ea k := by simp [State.ea]
@[simp] theorem State.timerPhase_keyDown (s : State) (k : Nibble) : s.timerPhase.keyDown k = s.keyDown k := by simp [State.keyDown]
@[simp] theorem State.timerPhase_wordAt (s : State) (a : Word) : s.timerPhase.wordAt a = s.wordAt a := by simp [State.wordAt, State.memRead]

theorem countDown_toNat (b : Byte) : (countDown b).toNat = b.toNat - 1 := by
  rw [countDown]
  split
  · simp_all
  · next h =>
    have : b.toNat ≠ 0 := fun e => h (BitVec.eq_of_toNat_eq (by simpa using e))
    rw [BitVec.toNat_sub_of_le (by rw [BitVec.le_def]; simp; omega)]
    rfl

/-- The wait phase: nothing with no key pressed, else the least key is recorded and consumed. -/
theorem State.waitPhase_eq (s : State) :
    (s.leastKey = none ∧ s.waitPhase = s) ∨
    ∃ k, s.leastKey = some k ∧ s.waitPhase =
      { (((s.setReg s.waitReg (k.setWidth 8)).putKey k false).advance) with runState := .running } := by
  rw [State.waitPhase]
  cases h : s.leastKey with
  | none => exact .inl ⟨rfl, rfl⟩
  | some k => exact .inr ⟨k, rfl, rfl⟩

/-! ### Fetch -/

/-- Fetch: out of range above 0xFFE, else the word at `pc`. -/
theorem State.fetch_eq (s : State) :
    (0xFFE < s.pc.toNat ∧ s.fetch = .error (.fetchOutOfRange s.pc)) ∨
    (s.pc.toNat ≤ 0xFFE ∧ s.fetch = .ok (s.wordAt s.pc)) := by
  rw [State.fetch]
  split
  case isTrue h => exact .inl ⟨h, rfl⟩
  case isFalse h => exact .inr ⟨Nat.le_of_not_lt h, rfl⟩

theorem wordOfBytes_bytes (w : Word) : wordOfBytes (hiByte w) (loByte w) = w := by
  simp only [wordOfBytes, hiByte, loByte]
  apply BitVec.eq_of_getLsbD_eq
  intro i hi
  simp only [BitVec.getLsbD_append, BitVec.getLsbD_extractLsb']
  split
  · simp; omega
  · have : i - 8 < 8 := by omega
    simp [this, show 8 + (i - 8) = i by omega]

/-- A placed word is the word the next fetch reads. -/
theorem State.wordAt_placeWord (s : State) (w : Word) :
    (s.placeWord w).wordAt (s.placeWord w).pc = w := by
  have hne : BitVec.ofNat 12 s.pc.toNat ≠ BitVec.ofNat 12 (s.pc.toNat + 1) := by
    intro e
    have := congrArg BitVec.toNat e
    simp only [BitVec.toNat_ofNat] at this
    omega
  simp only [State.wordAt, State.placeWord, State.memRead_memWrite, State.memWrite_pc, if_true, if_neg hne]
  exact wordOfBytes_bytes w

end Sys2Proof.Machine
end

