-- ==== Sys2Proof/Laws/Draw.lean ====
section
/-!
SUPPORT. The laws of sprite drawing (spec/44_display.md R212, R213): a drawing flips a list of cells, no cell twice, and hits
when one of them was set.
-/

namespace Sys2Proof.Machine

/-- One flip of a cell. -/
def flipCell (d : Drawing) (i : Nat) : Drawing := (d.1 ^^^ BitVec.twoPow 2048 i, d.2 || d.1.getLsbD i)

/-- The cells under the 1 bits of one row. -/
def rowCells (x0 y0 : Nat) (row : Byte × Nat) : List Nat :=
  ((List.range 8).filter (fun c => row.1.getLsbD (7 - c))).map
    (fun c => cellIndex ((x0 + c) % 64) ((y0 + row.2) % 32))

/-- The cells under the 1 bits of a sprite, in drawing order. -/
def spriteCells (x0 y0 : Nat) (rows : List Byte) : List Nat := rows.zipIdx.flatMap (rowCells x0 y0)

theorem drawRow_eq (x0 y0 : Nat) (d : Drawing) (row : Byte × Nat) :
    drawRow x0 y0 d row = (rowCells x0 y0 row).foldl flipCell d := by
  rw [drawRow, rowCells, List.foldl_map, List.foldl_filter]
  rfl

theorem drawSprite_eq (disp : Display) (x0 y0 : Nat) (rows : List Byte) :
    drawSprite disp x0 y0 rows = (spriteCells x0 y0 rows).foldl flipCell (disp, false) := by
  rw [drawSprite, spriteCells, List.foldl_flatMap]
  congr 1
  funext d row
  exact drawRow_eq x0 y0 d row

theorem getLsbD_flip (d : Display) (i j : Nat) (hi : i < 2048) :
    (d ^^^ BitVec.twoPow 2048 i).getLsbD j = (d.getLsbD j ^^ decide (i = j)) := by
  simp [BitVec.getLsbD_xor, BitVec.getLsbD_twoPow, hi]

/-- Flipping cells, no cell twice: each listed cell changes, and there is a hit when one of them was set. -/
theorem foldl_flipCell (cells : List Nat) (d : Drawing) (hb : ∀ i ∈ cells, i < 2048) (hn : cells.Nodup) :
    (∀ j, (cells.foldl flipCell d).1.getLsbD j = (d.1.getLsbD j ^^ decide (j ∈ cells))) ∧
    (cells.foldl flipCell d).2 = (d.2 || cells.any d.1.getLsbD) := by
  induction cells generalizing d with
  | nil => simp
  | cons i rest ih =>
    have hi : i < 2048 := hb i (by simp)
    obtain ⟨hir, hnr⟩ := List.nodup_cons.mp hn
    obtain ⟨h1, h2⟩ := ih (flipCell d i) (fun j hj => hb j (List.mem_cons_of_mem _ hj)) hnr
    refine ⟨fun j => ?_, ?_⟩
    · rw [List.foldl_cons, h1, flipCell, getLsbD_flip _ _ _ hi]
      by_cases hij : i = j
      · subst hij; simp [hir]
      · simp [hij, Ne.symm hij]
    · rw [List.foldl_cons, h2]
      have : rest.any (flipCell d i).1.getLsbD = rest.any d.1.getLsbD := by
        rw [Bool.eq_iff_iff, List.any_eq_true, List.any_eq_true]
        have key : ∀ j ∈ rest, (flipCell d i).1.getLsbD j = d.1.getLsbD j := by
          intro j hj
          rw [flipCell, getLsbD_flip _ _ _ hi]
          have : i ≠ j := fun e => hir (e ▸ hj)
          simp [this]
        exact ⟨fun ⟨j, hj, h⟩ => ⟨j, hj, key j hj ▸ h⟩, fun ⟨j, hj, h⟩ => ⟨j, hj, (key j hj).symm ▸ h⟩⟩
      rw [this]
      simp [flipCell, Bool.or_assoc]

/-- A cell lies under the sprite exactly when some 1 bit of some row lands on it. -/
theorem mem_spriteCells (x0 y0 : Nat) (rows : List Byte) (i : Nat) :
    i ∈ spriteCells x0 y0 rows ↔
      ∃ (r : Nat) (h : r < rows.length) (c : Nat), c < 8 ∧ rows[r].getLsbD (7 - c) = true ∧
        i = cellIndex ((x0 + c) % 64) ((y0 + r) % 32) := by
  simp only [spriteCells, rowCells, List.mem_flatMap, List.mem_map, List.mem_filter, List.mem_range, Prod.exists,
    List.mem_zipIdx_iff_getElem?]
  constructor
  · rintro ⟨b, r, hb, c, ⟨hc, hbit⟩, rfl⟩
    obtain ⟨h, rfl⟩ := List.getElem?_eq_some_iff.mp hb
    exact ⟨r, h, c, hc, hbit, rfl⟩
  · rintro ⟨r, h, c, hc, hbit, rfl⟩
    exact ⟨rows[r], r, by simp [h], c, ⟨hc, hbit⟩, rfl⟩

theorem cellIndex_lt (px py : Nat) (hx : px < 64) (hy : py < 32) : cellIndex px py < 2048 := by
  rw [cellIndex]; omega

theorem cellIndex_inj {px py qx qy : Nat} (hx : px < 64) (hq : qx < 64)
    (h : cellIndex px py = cellIndex qx qy) : px = qx ∧ py = qy := by
  simp only [cellIndex] at h; omega

/-- Every cell of a sprite is a cell of the display. -/
theorem spriteCells_lt (x0 y0 : Nat) (rows : List Byte) : ∀ i ∈ spriteCells x0 y0 rows, i < 2048 := by
  intro i hi
  obtain ⟨r, _, c, _, _, rfl⟩ := (mem_spriteCells _ _ _ _).mp hi
  exact cellIndex_lt _ _ (Nat.mod_lt _ (by omega)) (Nat.mod_lt _ (by omega))

/-- "Within one instruction no pixel is touched twice" (R212 f): at most 32 rows of 8 columns. -/
theorem spriteCells_nodup (x0 y0 : Nat) (rows : List Byte) (hlen : rows.length ≤ 32) :
    (spriteCells x0 y0 rows).Nodup := by
  rw [spriteCells, List.nodup_flatMap]
  constructor
  · rintro ⟨b, r⟩ _
    refine List.Nodup.map_on ?_ (List.nodup_range.filter _)
    intro c hc c' hc' h
    simp only [List.mem_filter, List.mem_range] at hc hc'
    have := (cellIndex_inj (Nat.mod_lt _ (by omega)) (Nat.mod_lt _ (by omega)) h).1
    omega
  · rw [List.pairwise_iff_getElem]
    intro j k hj hk hjk
    simp only [List.length_zipIdx] at hj hk
    simp only [Function.onFun, List.disjoint_left, List.getElem_zipIdx, rowCells, List.mem_map, List.mem_filter,
      List.mem_range]
    rintro i ⟨c, ⟨hc, _⟩, rfl⟩ ⟨c', ⟨hc', _⟩, h⟩
    have := (cellIndex_inj (Nat.mod_lt _ (by omega)) (Nat.mod_lt _ (by omega)) h).2
    omega

/-- What drawing does to a pixel, and when it hits (R212, R213). -/
theorem drawSprite_spec (disp : Display) (x0 y0 : Nat) (rows : List Byte) (hlen : rows.length ≤ 32) :
    (∀ j, (drawSprite disp x0 y0 rows).1.getLsbD j = (disp.getLsbD j ^^ decide (j ∈ spriteCells x0 y0 rows))) ∧
    (drawSprite disp x0 y0 rows).2 = (spriteCells x0 y0 rows).any disp.getLsbD := by
  rw [drawSprite_eq]
  obtain ⟨h1, h2⟩ := foldl_flipCell (spriteCells x0 y0 rows) (disp, false)
    (spriteCells_lt x0 y0 rows) (spriteCells_nodup x0 y0 rows hlen)
  exact ⟨h1, by rw [h2]; simp⟩

end Sys2Proof.Machine
end

