-- ==== Sys2Proof/Laws/PerInstr.lean ====
section
/-!
SUPPORT. Statements made per instruction. The family RowBits: the word of an instruction carries its row's fixed bits
(spec/30_encoding.md R100, the columns match and mask).
-/

namespace Sys2Proof.Laws.RowBits

/-- The columns mask and match of an instruction's row of the opcode map (R100). -/
def rowOf : Instr → Word × Word
  | .cls => (0xFFFF, 0x00E0)
  | .ret => (0xFFFF, 0x00EE)
  | .jp _ => (0xF000, 0x1000)
  | .call _ => (0xF000, 0x2000)
  | .seByte _ _ => (0xF000, 0x3000)
  | .sneByte _ _ => (0xF000, 0x4000)
  | .seReg _ _ => (0xF000, 0x5000)
  | .ldByte _ _ => (0xF000, 0x6000)
  | .addByte _ _ => (0xF000, 0x7000)
  | .ldReg _ _ => (0xF00F, 0x8000)
  | .orReg _ _ => (0xF00F, 0x8001)
  | .andReg _ _ => (0xF00F, 0x8002)
  | .xorReg _ _ => (0xF00F, 0x8003)
  | .addReg _ _ => (0xF00F, 0x8004)
  | .subReg _ _ => (0xF00F, 0x8005)
  | .shr _ _ => (0xF00F, 0x8006)
  | .subn _ _ => (0xF00F, 0x8007)
  | .shl _ _ => (0xF00F, 0x800E)
  | .sneReg _ _ => (0xF000, 0x9000)
  | .ldI _ => (0xF000, 0xA000)
  | .jpV0 _ => (0xF000, 0xB000)
  | .rnd _ _ => (0xF000, 0xC000)
  | .drw _ _ _ => (0xF000, 0xD000)
  | .skp _ => (0xF0FF, 0xE09E)
  | .sknp _ => (0xF0FF, 0xE0A1)
  | .ldVxDt _ => (0xF0FF, 0xF007)
  | .ldVxK _ => (0xF0FF, 0xF00A)
  | .ldDtVx _ => (0xF0FF, 0xF015)
  | .ldStVx _ => (0xF0FF, 0xF018)
  | .addI _ => (0xF0FF, 0xF01E)
  | .ldF _ => (0xF0FF, 0xF029)
  | .ldB _ => (0xF0FF, 0xF033)
  | .ldMemVx _ => (0xF0FF, 0xF055)
  | .ldVxMem _ => (0xF0FF, 0xF065)

/-- The fixed bits of the row stand in the word. -/
def Statement (i : Instr) : Prop := encode i &&& (rowOf i).1 = (rowOf i).2

theorem fmtNNN_and (g : Nibble) (nnn : Addr) : fmtNNN g nnn &&& 0xF000 = fmtNNN g 0 := by
  apply BitVec.eq_of_getLsbD_eq
  intro i hi
  simp only [fmtNNN, BitVec.getLsbD_and, BitVec.getLsbD_append]
  interval_cases i <;> simp

theorem fmtXKK_and (g x : Nibble) (kk : Byte) : fmtXKK g x kk &&& 0xF000 = fmtXKK g 0 0 := by
  apply BitVec.eq_of_getLsbD_eq
  intro i hi
  simp only [fmtXKK, BitVec.getLsbD_and, BitVec.getLsbD_append]
  interval_cases i <;> simp

theorem fmtXKK_and_selector (g x : Nibble) (kk : Byte) : fmtXKK g x kk &&& 0xF0FF = fmtXKK g 0 kk := by
  apply BitVec.eq_of_getLsbD_eq
  intro i hi
  simp only [fmtXKK, BitVec.getLsbD_and, BitVec.getLsbD_append]
  interval_cases i <;> simp

theorem fmtXYN_and (g x y n : Nibble) : fmtXYN g x y n &&& 0xF000 = fmtXYN g 0 0 0 := by
  apply BitVec.eq_of_getLsbD_eq
  intro i hi
  simp only [fmtXYN, BitVec.getLsbD_and, BitVec.getLsbD_append]
  interval_cases i <;> simp

theorem fmtXYN_and_selector (g x y n : Nibble) : fmtXYN g x y n &&& 0xF00F = fmtXYN g 0 0 n := by
  apply BitVec.eq_of_getLsbD_eq
  intro i hi
  simp only [fmtXYN, BitVec.getLsbD_and, BitVec.getLsbD_append]
  interval_cases i <;> simp

theorem cls : Statement (.cls) := rfl
theorem ret : Statement (.ret) := rfl
theorem jp (nnn : Addr) : Statement (.jp nnn) := fmtNNN_and _ nnn
theorem call (nnn : Addr) : Statement (.call nnn) := fmtNNN_and _ nnn
theorem seByte (x : Nibble) (kk : Byte) : Statement (.seByte x kk) := fmtXKK_and _ x kk
theorem sneByte (x : Nibble) (kk : Byte) : Statement (.sneByte x kk) := fmtXKK_and _ x kk
theorem seReg (x y : Nibble) : Statement (.seReg x y) := fmtXYN_and _ x y _
theorem ldByte (x : Nibble) (kk : Byte) : Statement (.ldByte x kk) := fmtXKK_and _ x kk
theorem addByte (x : Nibble) (kk : Byte) : Statement (.addByte x kk) := fmtXKK_and _ x kk
theorem ldReg (x y : Nibble) : Statement (.ldReg x y) := fmtXYN_and_selector _ x y _
theorem orReg (x y : Nibble) : Statement (.orReg x y) := fmtXYN_and_selector _ x y _
theorem andReg (x y : Nibble) : Statement (.andReg x y) := fmtXYN_and_selector _ x y _
theorem xorReg (x y : Nibble) : Statement (.xorReg x y) := fmtXYN_and_selector _ x y _
theorem addReg (x y : Nibble) : Statement (.addReg x y) := fmtXYN_and_selector _ x y _
theorem subReg (x y : Nibble) : Statement (.subReg x y) := fmtXYN_and_selector _ x y _
theorem shr (x y : Nibble) : Statement (.shr x y) := fmtXYN_and_selector _ x y _
theorem subn (x y : Nibble) : Statement (.subn x y) := fmtXYN_and_selector _ x y _
theorem shl (x y : Nibble) : Statement (.shl x y) := fmtXYN_and_selector _ x y _
theorem sneReg (x y : Nibble) : Statement (.sneReg x y) := fmtXYN_and _ x y _
theorem ldI (nnn : Addr) : Statement (.ldI nnn) := fmtNNN_and _ nnn
theorem jpV0 (nnn : Addr) : Statement (.jpV0 nnn) := fmtNNN_and _ nnn
theorem rnd (x : Nibble) (kk : Byte) : Statement (.rnd x kk) := fmtXKK_and _ x kk
theorem drw (x y n : Nibble) : Statement (.drw x y n) := fmtXYN_and _ x y n
theorem skp (x : Nibble) : Statement (.skp x) := fmtXKK_and_selector _ x _
theorem sknp (x : Nibble) : Statement (.sknp x) := fmtXKK_and_selector _ x _
theorem ldVxDt (x : Nibble) : Statement (.ldVxDt x) := fmtXKK_and_selector _ x _
theorem ldVxK (x : Nibble) : Statement (.ldVxK x) := fmtXKK_and_selector _ x _
theorem ldDtVx (x : Nibble) : Statement (.ldDtVx x) := fmtXKK_and_selector _ x _
theorem ldStVx (x : Nibble) : Statement (.ldStVx x) := fmtXKK_and_selector _ x _
theorem addI (x : Nibble) : Statement (.addI x) := fmtXKK_and_selector _ x _
theorem ldF (x : Nibble) : Statement (.ldF x) := fmtXKK_and_selector _ x _
theorem ldB (x : Nibble) : Statement (.ldB x) := fmtXKK_and_selector _ x _
theorem ldMemVx (x : Nibble) : Statement (.ldMemVx x) := fmtXKK_and_selector _ x _
theorem ldVxMem (x : Nibble) : Statement (.ldVxMem x) := fmtXKK_and_selector _ x _

end Sys2Proof.Laws.RowBits
end

