-- ==== Sys2Proof/Laws/Step.lean ====
section
/-!
SUPPORT. What a step can do, said once (spec/40_dispatcher_step.md R120, R130).
-/

namespace Sys2Proof.Machine

/-- Phases 4 to 6: a failed fetch, a failed decode, or the decoded instruction. -/
theorem State.runInstr_cases (s : State) :
    (0xFFE < s.pc.toNat ∧ s.runInstr = .next (s.halt (.fetchOutOfRange s.pc))) ∨
    (s.pc.toNat ≤ 0xFFE ∧ (∃ e, decodeWord (s.wordAt s.pc) = .error e) ∧
      s.runInstr = .next (s.halt (.unknownOpcode s.pc (s.wordAt s.pc)))) ∨
    (s.pc.toNat ≤ 0xFFE ∧ ∃ i, decodeWord (s.wordAt s.pc) = .ok i ∧ s.runInstr = exec i s) := by
  rcases s.fetch_eq with ⟨hpc, hf⟩ | ⟨hpc, hf⟩
  · exact .inl ⟨hpc, by rw [State.runInstr, hf]; rfl⟩
  · cases hd : decodeWord (s.wordAt s.pc) with
    | error e => exact .inr (.inl ⟨hpc, ⟨e, rfl⟩, by simp [State.runInstr, hf, hd, raise]⟩)
    | ok i => exact .inr (.inr ⟨hpc, i, rfl, by simp [State.runInstr, hf, hd]⟩)

/-- What a step can do, with `TIMER_FIRST = true`. -/
theorem step_cases (s : State) :
    (s.runState = .halted ∧ step s = .next s) ∨
    (s.runState = .waitingForKey ∧ step s = .next s.timerPhase.waitPhase) ∨
    (s.runState = .running ∧ 0xFFE < s.pc.toNat ∧ step s = .next (s.timerPhase.halt (.fetchOutOfRange s.pc))) ∨
    (s.runState = .running ∧ s.pc.toNat ≤ 0xFFE ∧ (∃ e, decodeWord (s.wordAt s.pc) = .error e) ∧
      step s = .next (s.timerPhase.halt (.unknownOpcode s.pc (s.wordAt s.pc)))) ∨
    (s.runState = .running ∧ s.pc.toNat ≤ 0xFFE ∧ ∃ i, decodeWord (s.wordAt s.pc) = .ok i ∧
      step s = exec i s.timerPhase) := by
  cases hr : s.runState with
  | halted => exact .inl ⟨rfl, by simp [step, State.cycle, hr]⟩
  | waitingForKey => exact .inr (.inl ⟨rfl, by simp [step, State.cycle, hr, Config.timerFirst]⟩)
  | running =>
    have hs : step s = s.timerPhase.runInstr := by simp [step, State.cycle, hr, Config.timerFirst]
    rw [hs]
    rcases s.timerPhase.runInstr_cases with ⟨h1, h2⟩ | ⟨h1, h2, h3⟩ | ⟨h1, i, h2, h3⟩
    · exact .inr (.inr (.inl ⟨rfl, by simpa using h1, by simpa using h2⟩))
    · exact .inr (.inr (.inr (.inl ⟨rfl, by simpa using h1, by simpa using h2, by simpa using h3⟩)))
    · exact .inr (.inr (.inr (.inr ⟨rfl, by simpa using h1, i, by simpa using h2, h3⟩)))

end Sys2Proof.Machine
end

