-- ==== Sys2Proof/Tests/Slice0.lean ====
section
/-!
SUPPORT. Tests of one step each, with expected values from spec/95_test_vectors.md (the id of the vector stands in each
docstring), and one witness for the hypotheses of every statement that has some.
-/

namespace Sys2Proof.Tests
open Sys2Proof Sys2Proof.Machine

/-! ### Small states -/

/-- The register file that holds the listed bytes, the others 0. -/
def regs (l : List (Nat × Byte)) : Vector Byte 16 :=
  l.foldl (fun v p => v.setIfInBounds p.1 p.2) (Vector.replicate 16 0)

/-- The keypad with the listed keys pressed. -/
def keys (l : List Nat) : Vector Bool 16 := l.foldl (fun v k => v.setIfInBounds k true) (Vector.replicate 16 false)

/-- The display with the listed pixels on. -/
def pixels (l : List (Nat × Nat)) : Display := l.foldl (fun d p => d ||| BitVec.twoPow 2048 (cellIndex p.1 p.2)) 0

/-- The stack that holds the listed words from entry 0, the others 0. -/
def entries (l : List Word) : Vector Word 16 :=
  l.zipIdx.foldl (fun v p => v.setIfInBounds p.2 p.1) (Vector.replicate 16 0)

/-- Reset, with registers and `I`. -/
def with_ (l : List (Nat × Byte)) (i : Word) : State := { State.reset with V := regs l, I := i }

/-- What is read of the state after one step that runs the word `w` placed at `pc`. -/
def after {α : Type} (s : State) (w : Nat) (f : State → α) : Option α :=
  match step (s.withFetchWord 16 w) with
  | .next t => some (f t)
  | _ => none

/-- What is read of the state after one step. -/
def next {α : Type} (s : State) (f : State → α) : Option α :=
  match step s with
  | .next t => some (f t)
  | _ => none

/-! ### Decoding: one word of every row, from the bit patterns of 30_encoding.md R100 and the vectors E1 to E16 -/

/-- E1, E2, E4 and R100. -/
theorem test_decode_control :
    decodeTableWord 16 0x00E0 = some .cls ∧ decodeTableWord 16 0x00EE = some .ret ∧
    decodeTableWord 16 0x1ABC = some (.jp 0xABC) ∧ decodeTableWord 16 0x2ABC = some (.call 0xABC) ∧
    decodeTableWord 16 0x3A2F = some (.seByte 0xA 0x2F) ∧ decodeTableWord 16 0x432A = some (.sneByte 3 0x2A) ∧
    decodeTableWord 16 0xBFFF = some (.jpV0 0xFFF) := by decide

/-- E5, E6, E7: the low nibble of groups 5 and 9 is ignored. -/
theorem test_decode_register_skips :
    decodeTableWord 16 0x5AB0 = some (.seReg 0xA 0xB) ∧ decodeTableWord 16 0x5AB7 = some (.seReg 0xA 0xB) ∧
    decodeTableWord 16 0x9AB0 = some (.sneReg 0xA 0xB) ∧ decodeTableWord 16 0x9ABF = some (.sneReg 0xA 0xB) := by decide

/-- E8, and R100 for groups 6, 7 and C. -/
theorem test_decode_alu :
    decodeTableWord 16 0x6A2F = some (.ldByte 0xA 0x2F) ∧ decodeTableWord 16 0x71FF = some (.addByte 1 0xFF) ∧
    decodeTableWord 16 0x8AB0 = some (.ldReg 0xA 0xB) ∧ decodeTableWord 16 0x8AB1 = some (.orReg 0xA 0xB) ∧
    decodeTableWord 16 0x8AB2 = some (.andReg 0xA 0xB) ∧ decodeTableWord 16 0x8AB3 = some (.xorReg 0xA 0xB) ∧
    decodeTableWord 16 0x8AB4 = some (.addReg 0xA 0xB) ∧ decodeTableWord 16 0x8AB5 = some (.subReg 0xA 0xB) ∧
    decodeTableWord 16 0x8AB6 = some (.shr 0xA 0xB) ∧ decodeTableWord 16 0x8AB7 = some (.subn 0xA 0xB) ∧
    decodeTableWord 16 0x8ABE = some (.shl 0xA 0xB) ∧ decodeTableWord 16 0xC30F = some (.rnd 3 0x0F) := by decide

/-- E10, E12, E14, and R100 for group A. -/
theorem test_decode_rest :
    decodeTableWord 16 0xA2F0 = some (.ldI 0x2F0) ∧ decodeTableWord 16 0xD120 = some (.drw 1 2 0) ∧
    decodeTableWord 16 0xE39E = some (.skp 3) ∧ decodeTableWord 16 0xE3A1 = some (.sknp 3) ∧
    decodeTableWord 16 0xF507 = some (.ldVxDt 5) ∧ decodeTableWord 16 0xF50A = some (.ldVxK 5) ∧
    decodeTableWord 16 0xF515 = some (.ldDtVx 5) ∧ decodeTableWord 16 0xF518 = some (.ldStVx 5) ∧
    decodeTableWord 16 0xF51E = some (.addI 5) ∧ decodeTableWord 16 0xF529 = some (.ldF 5) ∧
    decodeTableWord 16 0xF533 = some (.ldB 5) ∧ decodeTableWord 16 0xF555 = some (.ldMemVx 5) ∧
    decodeTableWord 16 0xF565 = some (.ldVxMem 5) := by decide

/-- E3, E9, E11, E13: unrecognised words. -/
theorem test_decode_rejects :
    (∀ w ∈ [0x0000, 0x00E1, 0x00FF, 0x01E0, 0x0123, 0x0FFF], decodeTableWord 16 w = none) ∧
    (∀ w ∈ [0x8AB8, 0x8AB9, 0x8ABA, 0x8ABB, 0x8ABC, 0x8ABD, 0x8ABF], decodeTableWord 16 w = none) ∧
    (∀ w ∈ [0xE39F, 0xE300, 0xE3A0, 0xE19D], decodeTableWord 16 w = none) ∧
    (∀ w ∈ [0xF500, 0xF530, 0xF575, 0xF585, 0xF000, 0xF5FF, 0xF51F], decodeTableWord 16 w = none) := by decide

/-- An unrecognised word is rejected by name (R102). -/
theorem test_decode_rejects_by_name : decodeWord 0x8AB8 = .error (.unknownOpcode 0x8AB8) := by decide

/-- E16. -/
theorem test_fields : opG 0xD7A5 = 0xD ∧ opX 0xD7A5 = 7 ∧ opY 0xD7A5 = 0xA ∧ opN 0xD7A5 = 5 ∧ opKK 0xD7A5 = 0xA5 ∧
    opNNN 0xD7A5 = 0x7A5 := by decide

/-- A word cut short is rejected by name (R90). -/
theorem test_decode_truncated :
    decodeBytes [0x12] = .error .truncated ∧ decodeBytes [0x12, 0x00, 0x6A] = .ok (.jp 0x200, [0x6A]) := by decide

/-! ### Well-formedness -/

/-- F4 and F5: `load_rom` refuses 3585 bytes and accepts 3584. -/
theorem test_rom_ill_formed :
    romWellFormed (List.replicate 3585 0xAA) = false ∧ romWellFormed (List.replicate 3584 0xAA) = true := by
  constructor <;> rw [romWellFormed, List.length_replicate] <;> decide

/-! ### Control transfer -/

/-- K2. -/
theorem test_jp : after State.reset 0x1FFF (·.pc) = some 0x0FFF := by decide
/-- K3. -/
theorem test_call : after State.reset 0x2ABC (fun t => (t.stack[0], t.sp.val, t.pc)) = some (0x0200, 1, 0x0ABC) := by decide
/-- K4. -/
theorem test_call_overflow : after { State.reset with sp := 16 } 0x2ABC (fun t => (t.haltCause, t.sp.val, t.pc)) =
    some (some .stackOverflow, 16, 0x0200) := by decide
/-- K7. -/
theorem test_ret : after { State.reset with sp := 3, stack := entries [0, 0, 0x0300] } 0x00EE
    (fun t => (t.pc, t.sp.val, t.stack[2])) = some (0x0302, 2, 0x0300) := by decide
/-- K5. -/
theorem test_ret_underflow : after State.reset 0x00EE (fun t => (t.haltCause, t.sp.val, t.pc)) =
    some (some .stackUnderflow, 0, 0x0200) := by decide
/-- K9 and K10. -/
theorem test_jpV0 : after (with_ [(0, 0xFF)] 0) 0xBFFF (·.pc) = some 0x10FE ∧
    after (with_ [(0, 0x10), (3, 0x99)] 0) 0xB300 (·.pc) = some 0x0310 := by decide
/-- S9. -/
theorem test_seByte : after (with_ [(3, 0x2A)] 0) 0x332A (·.pc) = some 0x0204 ∧
    after (with_ [(3, 0x2A)] 0) 0x332B (·.pc) = some 0x0202 := by decide
/-- K11. -/
theorem test_sneByte : after (with_ [(3, 0x2A)] 0) 0x432A (·.pc) = some 0x0202 ∧
    after (with_ [(3, 0x2A)] 0) 0x432B (·.pc) = some 0x0204 := by decide
/-- K12. -/
theorem test_seReg : after (with_ [(1, 7), (2, 7)] 0) 0x5120 (·.pc) = some 0x0204 ∧
    after (with_ [(1, 7), (2, 8)] 0) 0x5120 (·.pc) = some 0x0202 := by decide
/-- K14 and K15. -/
theorem test_sneReg : after (with_ [(4, 9)] 0) 0x9440 (·.pc) = some 0x0202 ∧
    after (with_ [(1, 7), (2, 8)] 0) 0x9120 (·.pc) = some 0x0204 := by decide

/-! ### ALU -/

/-- A1. -/
theorem test_ldByte : after State.reset 0x6A2F (fun t => (t.reg 0xA, t.pc)) = some (0x2F, 0x0202) := by decide
/-- A4. -/
theorem test_addByte : after (with_ [(0, 0xFF), (15, 0x55)] 0) 0x7001 (fun t => (t.reg 0, t.reg 15)) =
    some (0x00, 0x55) := by decide
/-- A5. -/
theorem test_ldReg : after (with_ [(15, 1)] 0) 0x8EF0 (·.reg 14) = some 1 := by decide
/-- A6. -/
theorem test_orReg : after (with_ [(0, 0xF0), (1, 0x0F), (15, 1)] 0) 0x8011 (fun t => (t.reg 0, t.reg 15)) =
    some (0xFF, 1) := by decide
/-- A7. -/
theorem test_andReg : after (with_ [(0, 0xF3), (1, 0x3C), (15, 1)] 0) 0x8012 (fun t => (t.reg 0, t.reg 15)) =
    some (0x30, 1) := by decide
/-- A8. -/
theorem test_xorReg : after (with_ [(0, 0xFF), (1, 0x0F), (15, 1)] 0) 0x8013 (fun t => (t.reg 0, t.reg 15)) =
    some (0xF0, 1) := by decide
/-- S2 and A13. -/
theorem test_addReg : after (with_ [(0, 0xFF), (1, 1)] 0) 0x8014 (fun t => (t.reg 0, t.reg 15, t.reg 1)) =
    some (0, 1, 1) ∧ after (with_ [(0, 0xFF), (15, 1)] 0) 0x80F4 (fun t => (t.reg 0, t.reg 15)) = some (0, 1) := by decide
/-- A14: the flag wins at x = 0xF. -/
theorem test_addReg_flag_last : after (with_ [(15, 0x80)] 0) 0x8FF4 (·.reg 15) = some 1 := by decide
/-- S4 and S5. -/
theorem test_subReg : after (with_ [(0, 5), (1, 2)] 0) 0x8015 (fun t => (t.reg 0, t.reg 15)) = some (3, 1) ∧
    after (with_ [(0, 1), (1, 2)] 0) 0x8015 (fun t => (t.reg 0, t.reg 15)) = some (0xFF, 0) := by decide
/-- A15: equal operands do not borrow. -/
theorem test_subReg_equal : after (with_ [(0, 7), (1, 7)] 0) 0x8015 (fun t => (t.reg 0, t.reg 15)) = some (0, 1) := by decide
/-- A19 and A20. -/
theorem test_subn : after (with_ [(0, 2), (1, 5)] 0) 0x8017 (fun t => (t.reg 0, t.reg 15)) = some (3, 1) ∧
    after (with_ [(0, 5), (1, 2)] 0) 0x8017 (fun t => (t.reg 0, t.reg 15)) = some (0xFD, 0) := by decide
/-- A22, for both values of `SHIFT_SRC`. -/
theorem test_shr :
    (shiftRight .X 0 1 (with_ [(0, 3), (1, 6)] 0)).V = regs [(0, 1), (1, 6), (15, 1)] ∧
    (shiftRight .Y 0 1 (with_ [(0, 3), (1, 6)] 0)).V = regs [(0, 3), (1, 6), (15, 0)] := by decide
/-- A26: x = y = 0xF, where both values of `SHIFT_SRC` agree. -/
theorem test_shr_flag_last : ∀ src ∈ [ShiftSrc.X, .Y], (shiftRight src 15 15 (with_ [(15, 3)] 0)).reg 15 = 1 := by decide
/-- A27, for both values of `SHIFT_SRC`. -/
theorem test_shl :
    (shiftLeft .X 0 1 (with_ [(0, 0x81), (1, 1)] 0)).V = regs [(0, 2), (1, 1), (15, 1)] ∧
    (shiftLeft .Y 0 1 (with_ [(0, 0x81), (1, 1)] 0)).V = regs [(0, 2), (1, 1), (15, 0)] := by decide
/-- A29, for both values of `SHIFT_SRC`. -/
theorem test_shl_no_carry : ∀ src ∈ [ShiftSrc.X, .Y], (shiftLeft src 0 0 (with_ [(0, 0x7F)] 0)).V = regs [(0, 0xFE)] := by
  decide
/-- A33: with the mask 0xFF the drawn byte itself, whatever it is, is written. -/
theorem test_rnd (s : State) : ∃ t, exec (.rnd 3 0xFF) s = .next t ∧ t.reg 3 = Config.draw s.draws :=
  ⟨_, rfl, (State.reg_setReg _ 3 3 _).trans (by rw [if_pos rfl]; exact BitVec.and_allOnes)⟩

/-! ### Index register, loads and stores -/

/-- M1. -/
theorem test_ldI : after (with_ [] 0xFFFF) 0xA2F0 (·.I) = some 0x02F0 := by decide
/-- M3 and M4. -/
theorem test_addI : after (with_ [(0, 1)] 0x0FFF) 0xF01E (fun t => (t.I, t.reg 15, t.ea 0)) = some (0x1000, 0, 0) ∧
    after (with_ [(0, 2)] 0xFFFF) 0xF01E (·.I) = some 0x0001 := by decide
/-- M6 and M7. -/
theorem test_ldF : after (with_ [(3, 0x0F)] 0) 0xF329 (·.I) = some 0x004B ∧
    after (with_ [(3, 0x1A)] 0) 0xF329 (·.I) = some 0x0032 := by decide
/-- M8. -/
theorem test_ldB : after (with_ [(0, 254)] 0x0300) 0xF033
    (fun t => (t.memRead 0x300, t.memRead 0x301, t.memRead 0x302, t.I)) = some (2, 5, 4, 0x0300) := by decide
/-- M11: precise, and the lowest offending offset is k = 2. -/
theorem test_ldB_protected : after (with_ [(0, 0x7B)] 0x0FFE) 0xF033
    (fun t => (t.haltCause, t.memRead 0xFFE, t.memRead 0x000, t.pc)) =
    some (some (.storeProtected 0x000), 0x00, 0xF0, 0x0200) := by decide
/-- M9, the first eight registers. -/
theorem test_ldMemVx : after (with_ [(0, 0x10), (7, 0x17), (8, 0x18)] 0x0400) 0xF755
    (fun t => (t.memRead 0x400, t.memRead 0x407, t.memRead 0x408, t.I)) = some (0x10, 0x17, 0x00, 0x0400) := by decide
/-- M12: the lowest offending offset is k = 0 and nothing is written. -/
theorem test_ldMemVx_protected : after (with_ [(0, 1), (1, 2), (2, 3)] 0x01FE) 0xF255
    (fun t => (t.haltCause, t.memRead 0x1FE, t.memRead 0x200)) = some (some (.storeProtected 0x1FE), 0x00, 0xF2) := by decide
/-- M15: the run wraps, and the low region may be read. -/
theorem test_ldVxMem : after (with_ [] 0x0FFF) 0xF165 (fun t => (t.reg 0, t.reg 1, t.reg 2)) = some (0x00, 0xF0, 0x00) := by
  decide
/-- M16: glyph 5 of the font. -/
theorem test_ldVxMem_font : after (with_ [] 0x0019) 0xF465 (·.V) =
    some (regs [(0, 0xF0), (1, 0x80), (2, 0xF0), (3, 0x10), (4, 0xF0)]) := by decide
/-- M11 under the other policy: the same operation stores. -/
theorem test_store_allowed :
    (((with_ [(0, 0x7B)] 0x0FFE).store .allow (bcdDigits 0x7B)).toOption.map
      (fun t => (t.memRead 0xFFE, t.memRead 0xFFF, t.memRead 0x000))) = some (1, 2, 3) := by decide

/-! ### Display -/

/-- G9v. -/
theorem test_cls : after { (with_ [(15, 1)] 0) with disp := pixels [(0, 0), (63, 31)] } 0x00E0
    (fun t => (t.disp, t.reg 15, t.redrawPending, t.pc)) = some (0, 1, true, 0x0202) := by decide +kernel
/-- G1v: glyph 5 at the origin. -/
theorem test_drw : after (with_ [] 0x0019) 0xD125 (fun t => (t.disp, t.reg 15, t.redrawPending)) =
    some (pixels ([(0, 0), (1, 0), (2, 0), (3, 0), (0, 1), (0, 2), (1, 2), (2, 2)] ++
      [(3, 2), (3, 3), (0, 4), (1, 4), (2, 4), (3, 4)]), 0, true) := by decide +kernel
/-- G4v: pixels wrap in x and y, and the run of rows wraps. -/
theorem test_drw_wraps : after { (with_ [(0, 0x3C), (1, 0x1F)] 0x0FFF) with mem := [(0xFFF, 0x81)] } 0xD012
    (fun t => (t.disp, t.reg 15)) = some (pixels [(60, 31), (3, 31), (60, 0), (61, 0), (62, 0), (63, 0)], 0) := by decide +kernel
/-- G7v: one pixel of four collides. -/
theorem test_drw_collision : after { (with_ [] 0x0300) with mem := [(0x300, 0xF0)], disp := pixels [(2, 0), (10, 0)] } 0xD001
    (fun t => (t.disp, t.reg 15)) = some (pixels [(0, 0), (1, 0), (3, 0), (10, 0)], 1) := by decide +kernel
/-- G6v: the column is the old `VF`. -/
theorem test_drw_old_vf : after { (with_ [(15, 3), (0, 2)] 0x0300) with mem := [(0x300, 0x80)] } 0xDF01
    (fun t => (t.disp, t.reg 15)) = some (pixels [(3, 2)], 0) := by decide +kernel

/-! ### Keypad and timers -/

/-- T1 and T2. -/
theorem test_skp : after { (with_ [(1, 7)] 0) with key := keys [7] } 0xE19E (fun t => (t.pc, t.keyDown 7)) =
    some (0x0204, false) ∧
    after { (with_ [(1, 7)] 0) with key := keys [8] } 0xE19E (fun t => (t.pc, t.keyDown 8)) = some (0x0202, true) := by decide
/-- T2b and T2c. -/
theorem test_sknp : after { (with_ [(1, 7)] 0) with key := keys [7] } 0xE1A1 (fun t => (t.pc, t.keyDown 7)) =
    some (0x0202, false) ∧ after (with_ [(1, 7)] 0) 0xE1A1 (·.pc) = some 0x0204 := by decide
/-- T5 and T6: the tick is consumed before the read. -/
theorem test_ldVxDt : after { State.reset with delay := 6 } 0xF207 (·.reg 2) = some 6 ∧
    after { State.reset with delay := 6, tickPending := true } 0xF207 (fun t => (t.delay, t.reg 2)) = some (5, 5) := by decide
/-- T12, the first step. -/
theorem test_ldVxK : after { State.reset with key := keys [2] } 0xF50A
    (fun t => (t.runState, t.waitReg, t.pc, t.keyDown 2)) = some (.waitingForKey, 5, 0x0200, true) := by decide
/-- T11: the step that ends the wait. -/
theorem test_wait : next { State.reset with runState := .waitingForKey, waitReg := 4, key := keys [3, 12] }
    (fun t => (t.reg 4, t.key, t.pc, t.runState)) = some (0x03, keys [12], 0x0202, .running) := by decide
/-- T7. -/
theorem test_ldDtVx : after { (with_ [(1, 7)] 0) with tickPending := true } 0xF115 (fun t => (t.delay, t.tickPending)) =
    some (7, false) := by decide
/-- T8. -/
theorem test_ldStVx : after { State.reset with sound := 5 } 0xF318 (fun t => (t.sound, t.beepPending)) =
    some (0, false) := by decide
/-- T3, steps 3 and 4: the beep, and the floor. -/
theorem test_timer_phase :
    after { State.reset with delay := 1, sound := 1, tickPending := true } 0x1200
      (fun t => (t.delay, t.sound, t.beepPending, t.tickPending)) = some (0, 0, true, false) ∧
    after { State.reset with tickPending := true } 0x1200
      (fun t => (t.delay, t.sound, t.beepPending, t.tickPending)) = some (0, 0, false, false) := by decide
/-- R122 with `TIMER_FIRST = false`: the same T6 word reads the timer before the tick is consumed. -/
theorem test_timer_last :
    (match ({ State.reset with delay := 6, tickPending := true }.withFetchWord 16 0xF207).cycle false with
      | .next t => some (t.delay, t.reg 2)
      | _ => none) = some (5, 6) := by decide

/-! ### Faults, reset and host operations -/

/-- F1. -/
theorem test_unknown_opcode : next State.reset (fun t => (t.runState, t.haltCause, t.pc)) =
    some (.halted, some (.unknownOpcode 0x0200 0x0000), 0x0200) := by decide
/-- F8 and the result the host is given (R128). -/
theorem test_fetch_out_of_range :
    stepResult { State.reset with pc := 0x0FFF } = some (.err (.fetchOutOfRange 0x0FFF)) := by decide
/-- T10: `Halted` does not run the timers. -/
theorem test_halted : next { (State.reset.halt .stackOverflow) with delay := 3, tickPending := true }
    (fun t => (t.delay, t.tickPending, t.haltCause)) = some (3, true, some .stackOverflow) := by decide
/-- F2 and F3, the host's part: `load_rom` does not leave `Halted`, `reset` does. -/
theorem test_load_rom :
    ((State.reset.halt .stackOverflow).loadRom [0x12, 0x34]).toOption.map
      (fun t => (t.runState, t.memRead 0x200, t.memRead 0x201, t.pc)) = some (.halted, 0x12, 0x34, 0x0200) ∧
    ((State.reset.halt .stackOverflow).setKey 3 true).hostReset = State.reset := by decide +kernel
/-- F6. -/
theorem test_font : State.reset.readRun 5 = [0xF0, 0x90, 0x90, 0x90, 0xF0] ∧
    ({ State.reset with I := 0x04B } : State).readRun 6 = [0xF0, 0x80, 0xF0, 0x80, 0x80, 0x00] := by decide +kernel
/-- T9 and F7. -/
theorem test_poll : ({ State.reset with beepPending := true } : State).pollBeep = (true, State.reset) ∧
    ({ State.reset with redrawPending := true } : State).takeRedraw = (true, State.reset) := by decide +kernel
/-- R280: a host that reads pixel (1, 0) finds cell 1. -/
theorem test_get_display : ({ State.reset with disp := pixels [(1, 0)] } : State).getDisplay.take 3 = [false, true, false] := by
  decide +kernel

/-! ### Witnesses: a concrete state and operands that meet the hypotheses of a statement, at the ends of their ranges -/

/-- A state that is not reset and meets the invariant: one call is in progress. -/
def inCall : State := { State.reset with stack := entries [0x0FFE], sp := 1, pc := 0x0ABC }

theorem inCall_inv : inCall.Inv where
  cause := by unfold State.CauseMatches; decide
  entries := by unfold State.LiveEntriesValid; decide
  low := fun _ _ => rfl
  mem := rfl

theorem witness_StepRunsTheDecodedInstruction :
    ∀ s ∈ [State.reset.withFetchWord 16 0x6A2F, { State.reset with pc := 0x0FFE }.withFetchWord 16 0x6A2F],
      s.runState = .running ∧ s.pc.toNat ≤ 0xFFE ∧ Instr.wellFormed (.ldByte 0xA 0x2F) = true ∧
      decodeWord (s.memRead (BitVec.ofNat 12 s.pc.toNat) ++ s.memRead (BitVec.ofNat 12 (s.pc.toNat + 1))) =
        .ok (.ldByte 0xA 0x2F) := by decide

theorem witness_FetchOutOfRangeHalts :
    ∀ s ∈ [{ State.reset with pc := 0x0FFF }, { State.reset with pc := 0xFFFF }],
      s.runState = .running ∧ 0xFFE < s.pc.toNat := by decide

theorem witness_UnrecognisedWordHalts :
    let s := { State.reset with pc := 0x0FFE }.withFetchWord 16 0xF575
    s.runState = .running ∧ s.pc.toNat ≤ 0xFFE ∧
    s.memRead (BitVec.ofNat 12 s.pc.toNat) ++ s.memRead (BitVec.ofNat 12 (s.pc.toNat + 1)) = (0xF575 : Word) ∧
    ∀ row ∈ opcodeMap, (0xF575 : Word) &&& row.mask ≠ row.pattern := by decide

theorem witness_HaltedIsLeftByResetOnly :
    let s := State.reset.halt .stackOverflow
    s.runState = .halted ∧ s.haltCause = some .stackOverflow ∧ Action.loadRom [0x12, 0x00] ≠ .reset := by decide

/-- No key; the first key only; the last key only; several keys. -/
theorem witness_WaitingStepTakesTheLeastKey :
    let s := { State.reset with runState := .waitingForKey }
    (s.runState = .waitingForKey ∧ ∀ k, s.keyDown k = false) ∧
    ∀ p ∈ ([([0], 0), ([15], 15), ([3, 12], 3)] : List (List Nat × Nibble)),
      let t := { s with key := keys p.1 }
      t.runState = .waitingForKey ∧ t.keyDown p.2 = true ∧ ∀ j < p.2, t.keyDown j = false := by decide

theorem witness_TimerPhaseCountsDown :
    State.reset.tickPending = false ∧ State.reset.tick.tickPending = true ∧
    ({ State.reset with sound := 1 } : State).tick.sound.toNat = 1 ∧ State.reset.tick.sound.toNat = 0 := by decide

theorem witness_EveryStepKeepsTheInvariant : inCall.Inv ∧ ∃ t, step (inCall.withFetchWord 16 0x00EE) = .next t :=
  ⟨inCall_inv, _, rfl⟩

theorem witness_EveryInterleavingKeepsTheInvariant :
    inCall.Inv ∧ ∃ t, runActions [.tick, .setKey 3 true, .takeRedraw, .step] inCall = .next t :=
  ⟨inCall_inv, _, rfl⟩

/-- One state for each cause, at the ends of the ranges. -/
theorem witness_FaultsArePrecise_and_FaultCausesAreExact :
    ∀ p ∈ ([({ State.reset with pc := 0x0FFF }, .fetchOutOfRange 0x0FFF),
        ({ State.reset with pc := 0x0FFE }, .unknownOpcode 0x0FFE 0x0000),
        ({ State.reset with sp := 16 }.withFetchWord 16 0x2ABC, .stackOverflow),
        (State.reset.withFetchWord 16 0x00EE, .stackUnderflow),
        ((with_ [] 0x0FFE).withFetchWord 16 0xF033, .storeProtected 0x000),
        ((with_ [] 0x01FF).withFetchWord 16 0xFF55, .storeProtected 0x1FF)] : List (State × Fault)),
      p.1.runState ≠ .halted ∧ next p.1 (fun t => (t.runState, t.haltCause)) = some (.halted, some p.2) := by decide

theorem witness_SelfJumpOnlyCountsTimers :
    (State.reset.withFetchWord 16 0x1200).AtEnd ∧ ({ State.reset with pc := 0x0FFE }.withFetchWord 16 0x1FFE).AtEnd := by
  refine ⟨⟨rfl, ?_, ?_⟩, ⟨rfl, ?_, ?_⟩⟩ <;> decide

theorem witness_DecodeOfEncodeIsTheInstruction :
    Instr.wellFormed .cls = true ∧ Instr.wellFormed (.drw 15 15 15) = true ∧ Instr.wellFormed (.call 0xFFF) = true := by
  decide

theorem witness_EncodeOfDecodeIsTheCanonicalWord :
    decodeWord 0x5AB7 = .ok (.seReg 0xA 0xB) ∧ decodeWord 0x9ABF = .ok (.sneReg 0xA 0xB) ∧
    decodeWord 0x8AB4 = .ok (.addReg 0xA 0xB) := by decide

theorem witness_DecodeFollowsTheOpcodeMap :
    (∀ row ∈ opcodeMap, row.pattern &&& row.mask = row.pattern) ∧
    ∀ row ∈ opcodeMap, (0x0000 : Word) &&& row.mask ≠ row.pattern := by decide

theorem witness_ReturnResumesPastTheCallSite :
    inCall.sp.val = (0 : Fin 16).val + 1 ∧ ({ State.reset with sp := 16 } : State).sp.val = (15 : Fin 16).val + 1 ∧
    State.reset.sp.val = 0 := by decide

theorem witness_CallPushesItsOwnAddress_and_CallThenReturnComesBack :
    State.reset.sp.val = (0 : Fin 16).val ∧ ({ State.reset with sp := 15 } : State).sp.val = (15 : Fin 16).val ∧
    ({ State.reset with sp := 15 } : State).sp.val < 16 ∧ ({ State.reset with sp := 16 } : State).sp.val = 16 := by decide

theorem witness_ShiftsDeliverTheBitShiftedOut :
    let s := with_ [(0, 0x81)] 0
    (0x81 : Byte) = if Config.shiftSrc = .Y then s.reg 0 else s.reg 0 := by
  show (0x81 : Byte) = if Config.shiftSrc = .Y then (0x81 : Byte) else 0x81
  split <;> rfl

theorem ea_with (i : Word) (k : Nat) : ((with_ [] i).ea k).toNat = (i.toNat + k) % 4096 := State.ea_toNat _ k

/-- The stores that complete, at both ends of the program region and for an `I` above 0xFFF, and the first offending offset
at 0, 1 and 2. -/
theorem witness_BcdDigitsAreStored :
    (∀ k < 3, 0x200 ≤ ((with_ [] 0x0200).ea k).toNat) ∧ (∀ k < 3, 0x200 ≤ ((with_ [] 0x0FFD).ea k).toNat) ∧
    (∀ k < 3, 0x200 ≤ ((with_ [] 0xF200).ea k).toNat) ∧ ((with_ [] 0x01FF).ea 0).toNat < 0x200 ∧
    (((with_ [] 0x0FFF).ea 1).toNat < 0x200 ∧ ∀ j < 1, 0x200 ≤ ((with_ [] 0x0FFF).ea j).toNat) ∧
    (((with_ [] 0x0FFE).ea 2).toNat < 0x200 ∧ ∀ j < 2, 0x200 ≤ ((with_ [] 0x0FFE).ea j).toNat) := by
  simp only [ea_with]
  refine ⟨fun k hk => ?_, fun k hk => ?_, fun k hk => ?_, ?_, ⟨?_, fun j hj => ?_⟩, ?_, fun j hj => ?_⟩ <;> simp <;> omega

/-- One register and all sixteen, at both ends of the program region; the first offending offset at 0 and 15. -/
theorem witness_RegistersAreDumped_and_DumpThenLoadReproducesTheRegisters :
    (∀ k ≤ (0 : Nibble).toNat, 0x200 ≤ ((with_ [] 0x0FFF).ea k).toNat) ∧
    (∀ k ≤ (15 : Nibble).toNat, 0x200 ≤ ((with_ [] 0x0200).ea k).toNat) ∧
    (∀ k ≤ (15 : Nibble).toNat, 0x200 ≤ ((with_ [] 0x0FF0).ea k).toNat) ∧ ((with_ [] 0x01FF).ea 0).toNat < 0x200 ∧
    (((with_ [] 0x0FF1).ea 15).toNat < 0x200 ∧ ∀ j < 15, 0x200 ≤ ((with_ [] 0x0FF1).ea j).toNat) := by
  simp only [ea_with]
  refine ⟨fun k hk => ?_, fun k hk => ?_, fun k hk => ?_, ?_, ?_, fun j hj => ?_⟩ <;> simp at * <;> omega

theorem witness_HighBitsOfIndexReachNothingElse :
    let s := with_ [(0, 0x7B)] 0x0300
    (0xF300 : Word).toNat % 4096 = s.I.toNat % 4096 ∧ ∃ t, exec (.ldB 0) s = .next t :=
  ⟨by decide, _, rfl⟩

/-- Row 0 of glyph 0 is 0xF0: pixel (0, 0) lies under a 1 bit, pixel (4, 0) does not; its pixels are on or off before. -/
theorem witness_DrawFlipsThePixelsUnderTheSprite_and_DrawTwiceRestoresTheDisplay :
    (0 : Nibble) ≠ 0xF ∧ UnderSprite State.reset 0 1 1 0 0 ∧ ¬ UnderSprite State.reset 0 1 1 4 0 ∧
    State.reset.pixel 0 0 = false ∧ ({ State.reset with disp := 1 } : State).pixel 0 0 = true := by
  refine ⟨by decide, ⟨0, by decide, 0, by decide, by decide +kernel⟩, ?_, by decide +kernel, by decide +kernel⟩
  have h : ∀ r < (1 : Nibble).toNat, ∀ c < 8, ¬ ((State.reset.memRead (State.reset.ea r)).getLsbD (7 - c) = true ∧
      4 = ((State.reset.reg 0).toNat + c) % 64 ∧ 0 = ((State.reset.reg 1).toNat + r) % 32) := by decide
  exact fun ⟨r, hr, c, hc, hu⟩ => h r hr c hc hu

/-- A pressed and an unpressed key; the register holds more than a key index. -/
theorem witness_KeySkipsConsumeTheKey :
    (0xF : Nibble).toNat = ((with_ [(1, 0x1F)] 0).reg 1).toNat % 16 ∧ State.reset.keyDown 0xF = false ∧
    ({ State.reset with key := keys [15] } : State).keyDown 0xF = true := by decide

theorem witness_NoStepSetsAKey :
    next ({ (with_ [(1, 7)] 0) with key := keys [7, 8] }.withFetchWord 16 0xE19E) (fun t => (t.keyDown 7, t.keyDown 8)) =
      some (false, true) := by decide

theorem witness_DelayFallsByAtMostOne :
    let s := { State.reset with delay := 5, tickPending := true }.withFetchWord 16 0x6A2F
    next s (·.delay) = some 4 ∧ ∀ x, decodeWord (s.wordAt s.pc) ≠ .ok (.ldDtVx x) := by decide

/-- For every clause, an instruction that does write that state. -/
theorem witness_InstructionsWriteOnlyTheirState :
    (∃ t, exec (.ldByte 0 9) State.reset = .next t ∧ t.V ≠ State.reset.V) ∧
    (∃ t, exec (.jp 0x0ABC) State.reset = .next t ∧ t.pc ≠ State.reset.pc) ∧
    (∃ t, exec (.rnd 0 9) State.reset = .next t ∧ t.draws ≠ State.reset.draws) ∧
    (∃ t, exec (.ldI 0x2F0) State.reset = .next t ∧ t.I ≠ State.reset.I) ∧
    (∃ t, exec (.ldMemVx 0) (with_ [(0, 9)] 0x0300) = .next t ∧ t.mem ≠ State.reset.mem) ∧
    (∃ t, exec .cls { State.reset with disp := 1 } = .next t ∧ t.disp ≠ 1 ∧ t.redrawPending ≠ State.reset.redrawPending) ∧
    (∃ t, exec (.call 0) State.reset = .next t ∧ t.stack ≠ State.reset.stack ∧ t.sp ≠ State.reset.sp) ∧
    (∃ t, exec (.ldDtVx 0) (with_ [(0, 9)] 0) = .next t ∧ t.delay ≠ State.reset.delay) ∧
    (∃ t, exec (.ldStVx 0) (with_ [(0, 9)] 0) = .next t ∧ t.sound ≠ State.reset.sound) ∧
    (∃ t, exec (.skp 0) { State.reset with key := keys [0] } = .next t ∧ t.key ≠ keys [0]) ∧
    (∃ t, exec (.ldVxK 1) State.reset = .next t ∧ t.waitReg ≠ State.reset.waitReg ∧ t.runState ≠ State.reset.runState) ∧
    (∃ t, exec .ret State.reset = .next t ∧ t.haltCause ≠ State.reset.haltCause) := by
  refine ⟨⟨_, rfl, ?_⟩, ⟨_, rfl, ?_⟩, ⟨_, rfl, ?_⟩, ⟨_, rfl, ?_⟩, ⟨_, rfl, ?_⟩, ⟨_, rfl, ?_, ?_⟩, ⟨_, rfl, ?_, ?_⟩, ⟨_, rfl, ?_⟩, ⟨_, rfl, ?_⟩, ⟨_, rfl, ?_⟩,
    ⟨_, rfl, ?_, ?_⟩, ⟨_, rfl, ?_⟩⟩ <;> decide +kernel

theorem witness_LoadRomWritesTheProgramRegion :
    (List.replicate 3584 (0xAA : Byte)).length ≤ 3584 ∧ 3584 < (List.replicate 3585 (0xAA : Byte)).length := by
  rw [List.length_replicate, List.length_replicate]; decide

end Sys2Proof.Tests
end

/-!
Control transfer (spec/41_control_flow.md): the fields of the words `gnnn` and `gxkk`, what `Push` and `Pop` answer at a given
number of entries, the meanings of the four instructions, and the obligations assembled from them.
-/

namespace Sys2Proof.Machine

/-! ### Fields of a word (R91, R92) -/

@[simp] theorem opG_fmtNNN (g : Nibble) (nnn : Addr) : opG (fmtNNN g nnn) = g :=
  BitVec.extractLsb'_append_eq_left

@[simp] theorem opNNN_fmtNNN (g : Nibble) (nnn : Addr) : opNNN (fmtNNN g nnn) = nnn :=
  BitVec.extractLsb'_append_eq_right

@[simp] theorem opKK_fmtXKK (g x : Nibble) (kk : Byte) : opKK (fmtXKK g x kk) = kk :=
  BitVec.extractLsb'_append_eq_right

@[simp] theorem opX_fmtXKK (g x : Nibble) (kk : Byte) : opX (fmtXKK g x kk) = x := by
  rw [opX, fmtXKK, BitVec.extractLsb'_append_eq_of_le (Nat.le_refl 8)]
  exact BitVec.extractLsb'_append_eq_right

@[simp] theorem opG_fmtXKK (g x : Nibble) (kk : Byte) : opG (fmtXKK g x kk) = g := by
  rw [opG, fmtXKK, BitVec.extractLsb'_append_eq_of_le (by decide : 8 ≤ 12)]
  exact BitVec.extractLsb'_append_eq_left

/-! ### The decoder on these words (R94) -/

theorem decodeWord_call (nnn : Addr) : decodeWord (fmtNNN 0x2 nnn) = .ok (.call nnn) := by
  simp [decodeWord]

theorem decodeWord_seByte (x : Nibble) (kk : Byte) : decodeWord (fmtXKK 0x3 x kk) = .ok (.seByte x kk) := by
  simp [decodeWord]

theorem decodeWord_sneByte (x : Nibble) (kk : Byte) : decodeWord (fmtXKK 0x4 x kk) = .ok (.sneByte x kk) := by
  simp [decodeWord]

/-! ### The stack at a given number of entries (R33, R34) -/

section Stack
variable {s : State} (v : Word)

theorem State.push_of_sp_eq_val {k : Fin 16} (h : s.sp.val = k.val) :
    s.push v = .ok { s with stack := s.stack.set k.val v, sp := k.succ } := by
  obtain ⟨hfull, -⟩ | ⟨j, hj, hpush⟩ := s.push_eq v
  · omega
  · obtain rfl : j = k := by omega
    exact hpush

theorem State.push_of_full (h : s.sp.val = 16) : s.push v = .error .stackOverflow := by
  obtain ⟨-, hpush⟩ | ⟨j, hj, -⟩ := s.push_eq v
  · exact hpush
  · omega

theorem State.pop_of_sp_eq_succ {k : Fin 16} (h : s.sp.val = k.val + 1) :
    s.pop = .ok (s.stack[k.val], { s with sp := k.castSucc }) := by
  obtain ⟨hempty, -⟩ | ⟨j, hj, hpop⟩ := s.pop_eq
  · omega
  · obtain rfl : j = k := by omega
    exact hpop

theorem State.pop_of_empty (h : s.sp.val = 0) : s.pop = .error .stackUnderflow := by
  obtain ⟨-, hpop⟩ | ⟨j, hj, -⟩ := s.pop_eq
  · exact hpop
  · omega

end Stack

/-! ### RET and CALL from what the stack answers (R141, R143) -/

section Meanings
variable {s t : State} {f : Fault}

theorem exec_ret_of_pop_ok {a : Word} (h : s.pop = .ok (a, t)) : exec .ret s = .next (t.setPc (a + 2)) := by
  simp [exec, execRet, h]

theorem exec_ret_of_pop_error (h : s.pop = .error f) : exec .ret s = .next (s.halt f) := by
  simp [exec, execRet, raise, h]

theorem exec_call_of_push_ok {nnn : Addr} (h : s.push s.pc = .ok t) :
    exec (.call nnn) s = .next (t.setPc (Addr.toWord nnn)) := by
  simp [exec, execCall, h]

theorem exec_call_of_push_error {nnn : Addr} (h : s.push s.pc = .error f) :
    exec (.call nnn) s = .next (s.halt f) := by
  simp [exec, execCall, raise, h]

end Meanings

/-! ### The skips (R126) -/

/-- A skip as an equation of whole states. -/
theorem State.skipIf_eq (s : State) (c : Bool) :
    s.skipIf c = { s with pc := if c then s.pc + 4 else s.pc + 2 } := by
  cases c <;> rfl

theorem exec_seByte (x : Nibble) (kk : Byte) (s : State) :
    exec (.seByte x kk) s = .next (s.skipIf (decide (s.reg x = kk))) := rfl

theorem exec_sneByte (x : Nibble) (kk : Byte) (s : State) :
    exec (.sneByte x kk) s = .next (s.skipIf (decide (s.reg x ≠ kk))) := rfl

/-! ### The obligations -/

/-- Settles O20: `Pop` either answers the last entry, and `RET` resumes two bytes past it, or underflows. -/
theorem returnResumesPastTheCallSite : Obligations.ReturnResumesPastTheCallSite := by
  refine ⟨by decide, fun s => ⟨fun k hk => ?_, fun hempty => ?_⟩⟩
  · exact exec_ret_of_pop_ok (State.pop_of_sp_eq_succ hk)
  · exact exec_ret_of_pop_error (State.pop_of_empty hempty)

/-- Settles O21: `Push` either writes the address of the `CALL` to the next free entry or overflows. -/
theorem callPushesItsOwnAddress : Obligations.CallPushesItsOwnAddress := by
  refine fun s nnn => ⟨decodeWord_call nnn, fun k hk => ?_, fun hfull => ?_⟩
  · refine ⟨_, exec_call_of_push_ok (State.push_of_sp_eq_val s.pc hk), rfl, fun j => ?_⟩
    simp [Vector.getElem_set, Fin.ext_iff, eq_comm (a := k.val)]
  · exact exec_call_of_push_error (State.push_of_full s.pc hfull)

/-- Settles O24: both skips set only `pc`, and `SNE` tests the negated condition of `SE`. -/
theorem skipsOnAnImmediate : Obligations.SkipsOnAnImmediate := by
  refine fun s x kk => ⟨decodeWord_seByte x kk, decodeWord_sneByte x kk, ?_, ?_⟩
  · simp [exec_seByte, State.skipIf_eq]
  · simp [exec_sneByte, State.skipIf_eq]

end Sys2Proof.Machine

/-!
The loads of a register (spec/42_alu.md): the fields of the words `gxyn`, the decoder on `6xkk` and `8xy0`, what a register
write followed by the advance of `pc` does to the whole state, and the obligation assembled from them.
-/

namespace Sys2Proof.Machine

/-! ### Fields of a word `gxyn` (R91, R92) -/

/-- The four nibbles written flat, as the obligations write them, are the `XYN` word. -/
theorem append_nibbles_eq_fmtXYN (g x y n : Nibble) : g ++ x ++ y ++ n = fmtXYN g x y n :=
  BitVec.append_assoc

@[simp] theorem opG_fmtXYN (g x y n : Nibble) : opG (fmtXYN g x y n) = g :=
  opG_fmtXKK g x (y ++ n)

@[simp] theorem opX_fmtXYN (g x y n : Nibble) : opX (fmtXYN g x y n) = x :=
  opX_fmtXKK g x (y ++ n)

@[simp] theorem opY_fmtXYN (g x y n : Nibble) : opY (fmtXYN g x y n) = y := by
  rw [← append_nibbles_eq_fmtXYN, opY, BitVec.extractLsb'_append_eq_of_le (Nat.le_refl 4)]
  exact BitVec.extractLsb'_append_eq_right

@[simp] theorem opN_fmtXYN (g x y n : Nibble) : opN (fmtXYN g x y n) = n := by
  rw [← append_nibbles_eq_fmtXYN]
  exact BitVec.extractLsb'_append_eq_right

/-! ### The decoder on these words (R94, R96) -/

theorem decodeWord_ldByte (x : Nibble) (kk : Byte) : decodeWord (fmtXKK 0x6 x kk) = .ok (.ldByte x kk) := by
  simp [decodeWord]

/-- A word of group 8 is decided by its low nibble alone. -/
theorem decodeWord_group8 (x y n : Nibble) : decodeWord (fmtXYN 0x8 x y n) = decodeGroup8 (fmtXYN 0x8 x y n) := by
  simp [decodeWord]

theorem decodeWord_ldReg (x y : Nibble) : decodeWord (fmtXYN 0x8 x y 0x0) = .ok (.ldReg x y) := by
  rw [decodeWord_group8]
  simp [decodeGroup8]

/-! ### Writing one register and advancing (R126, R161, R163) -/

theorem exec_ldByte (x : Nibble) (kk : Byte) (s : State) :
    exec (.ldByte x kk) s = .next (s.setReg x kk).advance := rfl

theorem exec_ldReg (x y : Nibble) (s : State) :
    exec (.ldReg x y) s = .next (s.setReg x (s.reg y)).advance := rfl

theorem State.regsAndAdvance_setReg_advance (s : State) (x : Nibble) (b : Byte) :
    RegsAndAdvance s (s.setReg x b).advance := rfl

theorem State.reg_setReg_advance (s : State) (x r : Nibble) (b : Byte) :
    (s.setReg x b).advance.reg r = if r = x then b else s.reg r := by
  rw [State.advance_reg, State.reg_setReg]

/-! ### The obligation -/

/-- Settles O26: both loads are one register write followed by the advance of `pc`, with `kk` or `V[y]` as the value. -/
theorem loadsWriteOneRegister : Obligations.LoadsWriteOneRegister := by
  intro s x y kk
  refine ⟨decodeWord_ldByte x kk, ?_, ?_, ?_⟩
  · rw [append_nibbles_eq_fmtXYN]
    exact decodeWord_ldReg x y
  · exact ⟨_, exec_ldByte x kk s, s.regsAndAdvance_setReg_advance x kk, fun r => s.reg_setReg_advance x r kk⟩
  · exact ⟨_, exec_ldReg x y s, s.regsAndAdvance_setReg_advance x (s.reg y), fun r => s.reg_setReg_advance x r (s.reg y)⟩

end Sys2Proof.Machine

/-!
Faults, timers and the host's reads (spec/60_exceptions.md): a word that decodes matches a row of the opcode map, the timer
phase with and without a pending tick, the cells `get_display` lists, and the obligations assembled from them.
-/

namespace Sys2Proof.Machine

/-! ### A word from its fields (R91, R92) -/

theorem fmtNNN_fields (w : Word) : fmtNNN (opG w) (opNNN w) = w :=
  (BitVec.extractLsb'_append_extractLsb'_eq_extractLsb' rfl).trans BitVec.extractLsb'_eq_self

theorem fmtXKK_fields (w : Word) : fmtXKK (opG w) (opX w) (opKK w) = w := by
  calc
    opG w ++ opX w ++ opKK w = w.extractLsb' 8 8 ++ opKK w :=
      congrArg (· ++ opKK w) (BitVec.extractLsb'_append_extractLsb'_eq_extractLsb' rfl)
    _ = w.extractLsb' 0 16 := BitVec.extractLsb'_append_extractLsb'_eq_extractLsb' rfl
    _ = w := BitVec.extractLsb'_eq_self

theorem fmtXYN_fields (w : Word) : fmtXYN (opG w) (opX w) (opY w) (opN w) = w := by
  calc
    opG w ++ opX w ++ (opY w ++ opN w) = opG w ++ opX w ++ opKK w :=
      congrArg (opG w ++ opX w ++ ·) (BitVec.extractLsb'_append_extractLsb'_eq_extractLsb' rfl)
    _ = w := fmtXKK_fields w

/-! ### What each mask of the opcode map keeps of a word (R100) -/

section Masks
variable {w : Word} {g : Nibble}

theorem and_groupMask (hg : opG w = g) : w &&& 0xF000 = fmtNNN g 0 := by
  subst hg
  simpa only [fmtNNN_fields] using Laws.RowBits.fmtNNN_and (opG w) (opNNN w)

theorem and_groupNibbleMask {n : Nibble} (hg : opG w = g) (hn : opN w = n) : w &&& 0xF00F = fmtXYN g 0 0 n := by
  subst hg hn
  simpa only [fmtXYN_fields] using Laws.RowBits.fmtXYN_and_selector (opG w) (opX w) (opY w) (opN w)

theorem and_groupSelectorMask {kk : Byte} (hg : opG w = g) (hkk : opKK w = kk) : w &&& 0xF0FF = fmtXKK g 0 kk := by
  subst hg hkk
  simpa only [fmtXKK_fields] using Laws.RowBits.fmtXKK_and_selector (opG w) (opX w) (opKK w)

end Masks

/-! ### A word that decodes matches the row of its instruction (R94 to R100) -/

section Rows
open Laws.RowBits (rowOf)
variable {w : Word} {i : Instr}

theorem decodeGroup0_ok_matches (h : decodeGroup0 w = .ok i) : w &&& (rowOf i).1 = (rowOf i).2 := by
  rw [decodeGroup0] at h
  split_ifs at h with hcls hret <;> cases h
  · rw [hcls]; rfl
  · rw [hret]; rfl

/-- The decoder compares a nibble as a number (R94, R96). -/
theorem eq_ofNat_of_toNat_eq {b : Nibble} {n : Nat} (h : b.toNat = n) : b = BitVec.ofNat 4 n := by
  rw [← h, BitVec.ofNat_toNat, BitVec.setWidth_eq]

theorem decodeGroup8_ok_matches (hg : opG w = 0x8) (h : decodeGroup8 w = .ok i) :
    w &&& (rowOf i).1 = (rowOf i).2 := by
  rw [decodeGroup8] at h
  split at h <;> cases h
  all_goals next hn => exact (and_groupNibbleMask hg (eq_ofNat_of_toNat_eq hn)).trans rfl

theorem decodeGroupE_ok_matches (hg : opG w = 0xE) (h : decodeGroupE w = .ok i) :
    w &&& (rowOf i).1 = (rowOf i).2 := by
  rw [decodeGroupE] at h
  split_ifs at h <;> cases h
  all_goals next hkk => exact (and_groupSelectorMask hg hkk).trans rfl

theorem decodeGroupF_ok_matches (hg : opG w = 0xF) (h : decodeGroupF w = .ok i) :
    w &&& (rowOf i).1 = (rowOf i).2 := by
  rw [decodeGroupF] at h
  split_ifs at h <;> cases h
  all_goals next hkk => exact (and_groupSelectorMask hg hkk).trans rfl

/-- By the group: four of them are decided by a second stage, in the others the group alone is the row. -/
theorem decodeWord_ok_matches (h : decodeWord w = .ok i) : w &&& (rowOf i).1 = (rowOf i).2 := by
  rw [decodeWord] at h
  split at h
  case h_1 => exact decodeGroup0_ok_matches h
  case h_9 hg => exact decodeGroup8_ok_matches (eq_ofNat_of_toNat_eq hg) h
  case h_15 hg => exact decodeGroupE_ok_matches (eq_ofNat_of_toNat_eq hg) h
  case h_16 =>
    have hlt : (opG w).toNat < 16 := (opG w).isLt
    have hg : (opG w).toNat = 15 := by
      simp only [imp_false] at *
      omega
    exact decodeGroupF_ok_matches (eq_ofNat_of_toNat_eq hg) h
  all_goals
    next hg =>
      cases h
      exact (and_groupMask (eq_ofNat_of_toNat_eq hg)).trans rfl

/-- The column pairs of `rowOf` stand in the opcode map. -/
theorem exists_opcodeMap_row (i : Instr) : ∃ row ∈ opcodeMap, (row.mask, row.pattern) = rowOf i := by
  cases i <;> simp [opcodeMap, rowOf]

theorem decodeWord_ok_row (h : decodeWord w = .ok i) : ∃ row ∈ opcodeMap, w &&& row.mask = row.pattern := by
  obtain ⟨row, hmem, hrow⟩ := exists_opcodeMap_row i
  refine ⟨row, hmem, ?_⟩
  have hmatch := decodeWord_ok_matches h
  rwa [← hrow] at hmatch

end Rows

/-! ### The result of a step that halts (R128) -/

theorem stepResult_of_step_halt {s t : State} {f : Fault} (h : step s = .next (t.halt f)) :
    stepResult s = some (.err f) := by
  rw [stepResult, h]
  rfl

/-! ### The timer phase (R272) -/

theorem State.timerPhase_of_no_tick {s : State} (h : s.tickPending = false) : s.timerPhase = s := by
  simp [State.timerPhase, h]

theorem State.timerPhase_of_tick {s : State} (h : s.tickPending = true) :
    s.timerPhase = { s with
      tickPending := false
      delay := countDown s.delay
      sound := countDown s.sound
      beepPending := s.beepPending || decide (s.sound = 1) } := by
  simp [State.timerPhase, h]

/-! ### The cells of the display in row-major order (R279, R29) -/

theorem State.getDisplay_length (s : State) : s.getDisplay.length = 2048 := by
  rw [State.getDisplay, List.length_map, List.length_range]

theorem State.getDisplay_getElem? (s : State) {px py : Nat} (hx : px < 64) (hy : py < 32) :
    s.getDisplay[cellIndex px py]? = some (s.pixel px py) := by
  rw [State.getDisplay, List.getElem?_map, List.getElem?_range (cellIndex_lt px py hx hy)]
  rfl

/-! ### The obligations -/

/-- Settles O5: in `Running` a step fetches a word in range, and a word that decoded would match a row of the map. -/
theorem unrecognisedWordHalts : Obligations.UnrecognisedWordHalts := by
  intro s w hrun hpc hfetch hrows
  have hw : s.wordAt s.pc = w := hfetch
  obtain ⟨hhalt, -⟩ | ⟨hwait, -⟩ | ⟨-, hrange, -⟩ | ⟨-, -, -, hstep⟩ | ⟨-, -, i, hdecode, -⟩ := step_cases s
  · simp [hrun] at hhalt
  · simp [hrun] at hwait
  · omega
  · rw [hw] at hstep
    exact ⟨_, hstep, rfl, rfl, stepResult_of_step_halt hstep⟩
  · rw [hw] at hdecode
    obtain ⟨row, hmem, hmatch⟩ := decodeWord_ok_row hdecode
    exact absurd hmatch (hrows row hmem)

/-- Settles O8: the phase is the identity without a tick; with one, both timers count down and `sound = 1` raises the beep. -/
theorem timerPhaseCountsDown : Obligations.TimerPhaseCountsDown := by
  refine fun s => ⟨State.timerPhase_of_no_tick, fun htick => ?_⟩
  refine ⟨_, State.timerPhase_of_tick htick, rfl, countDown_toNat s.delay, countDown_toNat s.sound, ?_⟩
  have hone : decide (s.sound = 1) = decide (s.sound.toNat = 1) := decide_eq_decide.mpr BitVec.toNat_inj.symm
  rw [hone]
  by_cases h : s.sound.toNat = 1 <;> simp [h]

/-- Settles O48: both polls answer their latch and clear it, and `get_display` lists the cells by their index. -/
theorem hostReadsAreOneShot : Obligations.HostReadsAreOneShot := by
  refine fun s => ⟨rfl, rfl, rfl, rfl, rfl, s.getDisplay_length, fun px hx py hy => ?_⟩
  exact s.getDisplay_getElem? hx hy

end Sys2Proof.Machine

/-!
Encoding (spec/30_encoding.md): the decoder on the word of every instruction, the word of every decoded instruction, the rows of
the opcode map, the words that match none, and the obligations assembled from them.
-/

namespace Sys2Proof.Machine

/-! ### The decoder on the word of an instruction (R94 to R98) -/

theorem decodeWord_groupE (x : Nibble) (kk : Byte) : decodeWord (fmtXKK 0xE x kk) = decodeGroupE (fmtXKK 0xE x kk) := by
  simp [decodeWord]

theorem decodeWord_groupF (x : Nibble) (kk : Byte) : decodeWord (fmtXKK 0xF x kk) = decodeGroupF (fmtXKK 0xF x kk) := by
  simp [decodeWord]

/-- Groups 5 and 9 ignore their low nibble (R99). -/
theorem decodeWord_seReg (x y n : Nibble) : decodeWord (fmtXYN 0x5 x y n) = .ok (.seReg x y) := by
  simp [decodeWord]

theorem decodeWord_sneReg (x y n : Nibble) : decodeWord (fmtXYN 0x9 x y n) = .ok (.sneReg x y) := by
  simp [decodeWord]

/-- By the format of the word and, in groups 8, E and F, the second stage of the decoder. -/
theorem decodeWord_encode (i : Instr) : decodeWord (encode i) = .ok i := by
  cases i with
  | cls | ret => rfl
  | jp | call | ldI | jpV0 | seByte | sneByte | ldByte | addByte | rnd | drw => simp [encode, decodeWord]
  | seReg x y => exact decodeWord_seReg x y 0
  | sneReg x y => exact decodeWord_sneReg x y 0
  | ldReg | orReg | andReg | xorReg | addReg | subReg | shr | subn | shl =>
    rw [encode, decodeWord_group8]
    simp [decodeGroup8]
  | skp | sknp =>
    rw [encode, decodeWord_groupE]
    simp [decodeGroupE]
  | ldVxDt | ldVxK | ldDtVx | ldStVx | addI | ldF | ldB | ldMemVx | ldVxMem =>
    rw [encode, decodeWord_groupF]
    simp [decodeGroupF]

theorem decodeBytes_encodeBytes (i : Instr) (rest : List Byte) : decodeBytes (encodeBytes i ++ rest) = .ok (i, rest) := by
  have hword : decodeWord (wordOfBytes (hiByte (encode i)) (loByte (encode i))) = .ok i := by
    rw [wordOfBytes_bytes, decodeWord_encode]
  simp [encodeBytes, bytesOfWord, decodeBytes, hword, Except.map]

/-! ### A word whose fields are known (R91, R92) -/

section Fields
variable {w : Word} {g n : Nibble} {kk : Byte}

theorem fmtNNN_of_opG (hg : opG w = g) : fmtNNN g (opNNN w) = w := hg ▸ fmtNNN_fields w

theorem fmtXKK_of_opG (hg : opG w = g) : fmtXKK g (opX w) (opKK w) = w := hg ▸ fmtXKK_fields w

theorem fmtXKK_of_opG_opKK (hg : opG w = g) (hkk : opKK w = kk) : fmtXKK g (opX w) kk = w := hkk ▸ fmtXKK_of_opG hg

theorem fmtXYN_of_opG (hg : opG w = g) : fmtXYN g (opX w) (opY w) (opN w) = w := hg ▸ fmtXYN_fields w

theorem fmtXYN_of_opG_opN (hg : opG w = g) (hn : opN w = n) : fmtXYN g (opX w) (opY w) n = w := hn ▸ fmtXYN_of_opG hg

end Fields

theorem fmtXYN_and_fmtXYN (g x y n g' x' y' n' : Nibble) :
    fmtXYN g x y n &&& fmtXYN g' x' y' n' = fmtXYN (g &&& g') (x &&& x') (y &&& y') (n &&& n') :=
  BitVec.and_append.trans (congrArg₂ (· ++ ·) BitVec.and_append BitVec.and_append)

/-- Clearing the low nibble of a word makes its `n` field 0 and keeps the others. -/
theorem fmtXYN_zero_of_opG {w : Word} {g : Nibble} (hg : opG w = g) : fmtXYN g (opX w) (opY w) 0 = w &&& 0xFFF0 := by
  calc
    fmtXYN g (opX w) (opY w) 0 = fmtXYN g (opX w) (opY w) (opN w) &&& fmtXYN 0xF 0xF 0xF 0x0 := by
      have hone (a : Nibble) : a &&& 0xF = a := BitVec.and_allOnes
      rw [fmtXYN_and_fmtXYN, hone, hone, hone]; exact congrArg _ BitVec.and_zero.symm
    _ = w &&& 0xFFF0 := congrArg (· &&& 0xFFF0) (fmtXYN_of_opG hg)

/-! ### The word of a decoded instruction (R99, R100) -/

section Canonical
variable {w : Word} {i : Instr}

theorem encode_of_decodeGroup0 (h : decodeGroup0 w = .ok i) : encode i = w := by
  rw [decodeGroup0] at h
  split_ifs at h with hcls hret <;> cases h
  · exact hcls.symm
  · exact hret.symm

theorem encode_of_decodeGroup8 (hg : opG w = 0x8) (h : decodeGroup8 w = .ok i) : encode i = w := by
  rw [decodeGroup8] at h
  split at h <;> cases h
  all_goals next hn => exact fmtXYN_of_opG_opN hg (eq_ofNat_of_toNat_eq hn)

theorem encode_of_decodeGroupE (hg : opG w = 0xE) (h : decodeGroupE w = .ok i) : encode i = w := by
  rw [decodeGroupE] at h
  split_ifs at h <;> cases h
  all_goals next hkk => exact fmtXKK_of_opG_opKK hg hkk

theorem encode_of_decodeGroupF (hg : opG w = 0xF) (h : decodeGroupF w = .ok i) : encode i = w := by
  rw [decodeGroupF] at h
  split_ifs at h <;> cases h
  all_goals next hkk => exact fmtXKK_of_opG_opKK hg hkk

end Canonical

/-- The canonical encoding of a word that decodes: its low nibble is 0 in groups 5 and 9 (R99). -/
def canonicalWord (w : Word) : Word := if opG w = 0x5 ∨ opG w = 0x9 then w &&& 0xFFF0 else w

theorem encode_canonical {w : Word} {g : Nibble} {i : Instr} (hg : opG w = g) (hne : g ≠ 0x5 ∧ g ≠ 0x9)
    (h : encode i = w) : encode i = canonicalWord w := by
  subst hg
  rw [h, canonicalWord, if_neg (not_or.mpr hne)]

/-- The decoder by group (R94): four groups have a second stage, in the others every word decodes. -/
theorem decodeWord_cases (w : Word) :
    (opG w = 0x0 ∧ decodeWord w = decodeGroup0 w) ∨
    (opG w = 0x8 ∧ decodeWord w = decodeGroup8 w) ∨
    (opG w = 0xE ∧ decodeWord w = decodeGroupE w) ∨
    (opG w = 0xF ∧ decodeWord w = decodeGroupF w) ∨
    (opG w ∉ [0x0, 0x8, 0xE, 0xF] ∧ ∃ i, decodeWord w = .ok i ∧ encode i = canonicalWord w) := by
  have hlt : (opG w).toNat < 16 := (opG w).isLt
  generalize hd : decodeWord w = d
  rw [decodeWord] at hd
  split at hd
  case h_1 hg => exact .inl ⟨eq_ofNat_of_toNat_eq hg, hd.symm⟩
  case h_9 hg => exact .inr (.inl ⟨eq_ofNat_of_toNat_eq hg, hd.symm⟩)
  case h_15 hg => exact .inr (.inr (.inl ⟨eq_ofNat_of_toNat_eq hg, hd.symm⟩))
  case h_16 =>
    have hg : (opG w).toNat = 15 := by
      simp only [imp_false] at *
      omega
    exact .inr (.inr (.inr (.inl ⟨eq_ofNat_of_toNat_eq hg, hd.symm⟩)))
  case h_6 hn | h_10 hn =>
    have hg := eq_ofNat_of_toNat_eq hn
    refine .inr (.inr (.inr (.inr ⟨by rw [hg]; decide, _, hd.symm, ?_⟩)))
    exact (fmtXYN_zero_of_opG hg).trans (if_pos (by rw [hg]; decide)).symm
  case h_14 hn =>
    have hg := eq_ofNat_of_toNat_eq hn
    refine .inr (.inr (.inr (.inr ⟨by rw [hg]; decide, _, hd.symm, ?_⟩)))
    exact encode_canonical hg (by decide) (fmtXYN_of_opG hg)
  case h_2 hn | h_3 hn | h_11 hn | h_12 hn =>
    have hg := eq_ofNat_of_toNat_eq hn
    refine .inr (.inr (.inr (.inr ⟨by rw [hg]; decide, _, hd.symm, ?_⟩)))
    exact encode_canonical hg (by decide) (fmtNNN_of_opG hg)
  case h_4 hn | h_5 hn | h_7 hn | h_8 hn | h_13 hn =>
    have hg := eq_ofNat_of_toNat_eq hn
    refine .inr (.inr (.inr (.inr ⟨by rw [hg]; decide, _, hd.symm, ?_⟩)))
    exact encode_canonical hg (by decide) (fmtXKK_of_opG hg)

theorem encode_of_decodeWord {w : Word} {i : Instr} (h : decodeWord w = .ok i) : encode i = canonicalWord w := by
  obtain ⟨hg, hd⟩ | ⟨hg, hd⟩ | ⟨hg, hd⟩ | ⟨hg, hd⟩ | ⟨-, j, hd, hj⟩ := decodeWord_cases w <;> rw [hd] at h
  · exact encode_canonical hg (by decide) (encode_of_decodeGroup0 h)
  · exact encode_canonical hg (by decide) (encode_of_decodeGroup8 hg h)
  · exact encode_canonical hg (by decide) (encode_of_decodeGroupE hg h)
  · exact encode_canonical hg (by decide) (encode_of_decodeGroupF hg h)
  · cases h
    exact hj

/-! ### Words that are rejected (R95 to R98, R102) -/

section Rejected
variable {w : Word}

theorem decodeGroup0_error_iff (hg : opG w = 0x0) :
    decodeGroup0 w = .error (.unknownOpcode w) ↔ opNNN w ∉ [0x0E0#12, 0x0EE#12] := by
  have hfield (nnn : Addr) : w = fmtNNN 0x0 nnn ↔ opNNN w = nnn :=
    ⟨fun h => by rw [h, opNNN_fmtNNN], fun h => by rw [← h, fmtNNN_of_opG hg]⟩
  have hcls : w = 0x00E0 ↔ opNNN w = 0x0E0 := hfield 0x0E0
  have hret : w = 0x00EE ↔ opNNN w = 0x0EE := hfield 0x0EE
  rw [decodeGroup0]
  split_ifs with h1 h2 <;> simp_all

theorem decodeGroup8_error_iff :
    decodeGroup8 w = .error (.unknownOpcode w) ↔ opN w ∈ [0x8#4, 0x9#4, 0xA#4, 0xB#4, 0xC#4, 0xD#4, 0xF#4] := by
  have hmem : opN w ∈ [0x8#4, 0x9#4, 0xA#4, 0xB#4, 0xC#4, 0xD#4, 0xF#4] ↔ (opN w).toNat ∈ [8, 9, 10, 11, 12, 13, 15] := by
    simp [← BitVec.toNat_inj]
  have hlt : (opN w).toNat < 16 := (opN w).isLt
  rw [hmem, decodeGroup8]
  split
  case h_10 =>
    simp only [imp_false] at *
    simp only [List.mem_cons, List.not_mem_nil, or_false, true_iff]
    omega
  all_goals next hn => simp [hn]

theorem decodeGroupE_error_iff :
    decodeGroupE w = .error (.unknownOpcode w) ↔ opKK w ∉ [0x9E#8, 0xA1#8] := by
  rw [decodeGroupE]
  split_ifs <;> simp_all

theorem decodeGroupF_error_iff :
    decodeGroupF w = .error (.unknownOpcode w) ↔
      opKK w ∉ [0x07#8, 0x0A#8, 0x15#8, 0x18#8, 0x1E#8, 0x29#8, 0x33#8, 0x55#8, 0x65#8] := by
  rw [decodeGroupF]
  split_ifs <;> simp_all

/-- A failed decode names its word (R102). -/
theorem decodeWord_error {e : DecodeError} (h : decodeWord w = .error e) : e = .unknownOpcode w := by
  obtain ⟨-, hd⟩ | ⟨-, hd⟩ | ⟨-, hd⟩ | ⟨-, hd⟩ | ⟨-, j, hd, -⟩ := decodeWord_cases w <;> rw [hd] at h
  · rw [decodeGroup0] at h
    split_ifs at h
    cases h; rfl
  · rw [decodeGroup8] at h
    split at h <;> cases h
    rfl
  · rw [decodeGroupE] at h
    split_ifs at h
    cases h; rfl
  · rw [decodeGroupF] at h
    split_ifs at h
    cases h; rfl
  · cases h

end Rejected

/-! ### The rows of the opcode map (R100) -/

section Rows
variable {w m p : Word}

theorem opG_eq_of_match (h : w &&& m = p) (hm : opG m = 0xF) : opG w = opG p := by
  have hone : opG w &&& 0xF = opG w := BitVec.and_allOnes
  rw [← h, ← hone, ← hm]
  exact BitVec.extractLsb'_and.symm

theorem opN_eq_of_match (h : w &&& m = p) (hm : opN m = 0xF) : opN w = opN p := by
  have hone : opN w &&& 0xF = opN w := BitVec.and_allOnes
  rw [← h, ← hone, ← hm]
  exact BitVec.extractLsb'_and.symm

theorem opKK_eq_of_match (h : w &&& m = p) (hm : opKK m = 0xFF) : opKK w = opKK p := by
  have hone : opKK w &&& 0xFF = opKK w := BitVec.and_allOnes
  rw [← h, ← hone, ← hm]
  exact BitVec.extractLsb'_and.symm

theorem opcodeMap_pairwise :
    opcodeMap.Pairwise (fun a b => a.pattern &&& b.mask ≠ b.pattern &&& a.mask) := by decide

theorem match_disjoint {a b : OpcodeRow} (hab : a.pattern &&& b.mask ≠ b.pattern &&& a.mask) (w : Word)
    (ha : w &&& a.mask = a.pattern) : w &&& b.mask ≠ b.pattern := by
  intro hb
  apply hab
  rw [← ha, ← hb]
  ac_rfl

theorem decodeWord_of_wholeMask {i : Instr} (hp : decodeWord p = .ok i) (h : w &&& 0xFFFF = p) : decodeWord w = .ok i := by
  have hw : w = p := BitVec.and_allOnes.symm.trans h
  rw [hw, hp]

/-- By the mask of the row: it fixes the whole word, the group, or the group and what its second stage decides on. -/
theorem decodeWord_of_match {row : OpcodeRow} (hrow : row ∈ opcodeMap) (h : w &&& row.mask = row.pattern) :
    decodeWord w = .ok (row.instr w) := by
  simp only [opcodeMap, List.mem_append, List.mem_cons, List.not_mem_nil, or_false] at hrow
  obtain ((hrow | hrow) | hrow) | hrow := hrow
  · obtain rfl | rfl | hrow := hrow
    · exact decodeWord_of_wholeMask rfl h
    · exact decodeWord_of_wholeMask rfl h
    · obtain rfl | rfl | rfl | rfl | rfl | rfl | rfl := hrow
      all_goals rw [decodeWord, opG_eq_of_match h rfl]; rfl
  · obtain rfl | rfl | rfl | rfl | rfl | rfl | rfl | rfl | rfl := hrow
    all_goals
      rw [decodeWord, opG_eq_of_match h rfl]
      change decodeGroup8 w = _
      rw [decodeGroup8, opN_eq_of_match h rfl]; rfl
  · obtain rfl | rfl | rfl | rfl | rfl | hrow := hrow
    iterate 5 rw [decodeWord, opG_eq_of_match h rfl]; rfl
    obtain rfl | rfl := hrow
    all_goals
      rw [decodeWord, opG_eq_of_match h rfl]
      change decodeGroupE w = _
      rw [decodeGroupE, opKK_eq_of_match h rfl]; rfl
  · obtain rfl | rfl | rfl | rfl | rfl | rfl | rfl | rfl | rfl := hrow
    all_goals
      rw [decodeWord, opG_eq_of_match h rfl]
      change decodeGroupF w = _
      rw [decodeGroupF, opKK_eq_of_match h rfl]; rfl

end Rows

/-! ### The obligations -/

/-- Settles O15: the decoder on the word of each instruction, and the two bytes of a word put together again. -/
theorem decodeOfEncodeIsTheInstruction : Obligations.DecodeOfEncodeIsTheInstruction :=
  fun i rest _ => ⟨decodeWord_encode i, decodeBytes_encodeBytes i rest⟩

/-- Settles O16: by the group, every decoded instruction is put together from the fields of its word. -/
theorem encodeOfDecodeIsTheCanonicalWord : Obligations.EncodeOfDecodeIsTheCanonicalWord :=
  fun _ _ h => encode_of_decodeWord h

/-- Settles O17: a row's mask fixes what the decoder decides on, a word that decodes matches a row, and two rows disagree on a bit
that both masks keep. -/
theorem decodeFollowsTheOpcodeMap : Obligations.DecodeFollowsTheOpcodeMap := by
  refine ⟨fun row hrow w h => decodeWord_of_match hrow h, fun w hrows => ?_, rfl, ?_⟩
  · cases hd : decodeWord w with
    | error e => rw [decodeWord_error hd]
    | ok i =>
      obtain ⟨row, hrow, hmatch⟩ := decodeWord_ok_row hd
      exact absurd hmatch (hrows row hrow)
  · exact opcodeMap_pairwise.imp fun hab w => match_disjoint hab w

/-- Settles O18: only the four groups with a second stage reject a word, and each by the field it decides on. -/
theorem unrecognisedWordsAreExactly : Obligations.UnrecognisedWordsAreExactly := by
  intro w
  change decodeWord w = .error (.unknownOpcode w) ↔
    (opG w = 0x0 ∧ opNNN w ∉ _) ∨ (opG w = 0x8 ∧ opN w ∈ _) ∨ (opG w = 0xE ∧ opKK w ∉ _) ∨ (opG w = 0xF ∧ opKK w ∉ _)
  obtain ⟨hg, hd⟩ | ⟨hg, hd⟩ | ⟨hg, hd⟩ | ⟨hg, hd⟩ | ⟨hg, i, hd, -⟩ := decodeWord_cases w <;> rw [hd]
  · rw [decodeGroup0_error_iff hg]; simp [hg]
  · rw [decodeGroup8_error_iff]; simp [hg]
  · rw [decodeGroupE_error_iff]; simp [hg]
  · rw [decodeGroupF_error_iff]; simp [hg]
  · simp_all

/-- Settles O19: fourteen closed words, run through the decoder. -/
theorem sampleWordsDecode : Obligations.SampleWordsDecode := by
  unfold Obligations.SampleWordsDecode
  decide

end Sys2Proof.Machine

/-!
What an instruction and a step can do (spec/40_dispatcher_step.md, 60_exceptions.md): the faults an instruction raises, the effect
of an instruction as one of a few classes of state changes, and the obligations on steps that follow from these cases.
-/

namespace Sys2Proof.Machine

/-! ### The faults and the effects of an instruction (R250 to R257, R140, R160, R190, R210, R232) -/

/-- The bytes a store instruction writes (R194, R195). -/
def State.storedBytes (s : State) : Instr → Option (List Byte)
  | .ldB x => some (bcdDigits (s.reg x))
  | .ldMemVx x => some (s.regRun x)
  | _ => none

/-- The faults that executing an instruction raises, each with its condition (R252, R253, R255). -/
inductive Raises (s : State) : Instr → Fault → Prop
  | overflow (nnn : Addr) (hfull : s.sp.val = 16) : Raises s (.call nnn) .stackOverflow
  | underflow (hempty : s.sp.val = 0) : Raises s .ret .stackUnderflow
  | lowStore {i : Instr} {bytes : List Byte} {a : Addr} (hbytes : s.storedBytes i = some bytes)
      (hlow : s.lowAddr bytes.length = some a) : Raises s i (.storeProtected a)

/-- The instructions that write registers and nothing else: the ALU without `RND`, `LD Vx, DT` and `LD Vx, [I]`. -/
def WritesRegsOnly (i : Instr) : Prop :=
  (∃ x kk, i = .ldByte x kk ∨ i = .addByte x kk) ∨
  (∃ x y, i = .ldReg x y ∨ i = .orReg x y ∨ i = .andReg x y ∨ i = .xorReg x y) ∨
  (∃ x y, i = .addReg x y ∨ i = .subReg x y ∨ i = .shr x y ∨ i = .subn x y ∨ i = .shl x y) ∨
  ∃ x, i = .ldVxDt x ∨ i = .ldVxMem x

/-- The instructions that write `I` (R190). -/
def LoadsIndex (i : Instr) : Prop := (∃ nnn, i = .ldI nnn) ∨ (∃ x, i = .addI x) ∨ ∃ x, i = .ldF x

/-- What an instruction does to the state, by the state it may write: a field that a constructor does not name stays as it is.
`flow` is the jumps and the skips on registers and immediates, `keySkip` the skips on keys. -/
inductive Effect (s : State) : Instr → State → Prop
  | regs {i : Instr} (V : Vector Byte 16) (hi : WritesRegsOnly i) : Effect s i { s with V := V, pc := s.pc + 2 }
  | random (x : Nibble) (kk : Byte) (V : Vector Byte 16) :
      Effect s (.rnd x kk) { s with V := V, pc := s.pc + 2, draws := s.draws + 1 }
  | clear (d : Display) : Effect s .cls { s with disp := d, redrawPending := true, pc := s.pc + 2 }
  | draw (x y n : Nibble) (V : Vector Byte 16) (d : Display) :
      Effect s (.drw x y n) { s with V := V, disp := d, redrawPending := true, pc := s.pc + 2 }
  | flow {i : Instr} (pc : Word) (hi : ∀ x, i ≠ .ldVxK x) : Effect s i { s with pc := pc }
  | call (nnn : Addr) (k : Fin 16) (hk : s.sp.val = k.val) :
      Effect s (.call nnn) { s with stack := s.stack.set k.val s.pc, sp := k.succ, pc := Addr.toWord nnn }
  | ret (k : Fin 16) (hk : s.sp.val = k.val + 1) : Effect s .ret { s with sp := k.castSucc, pc := s.stack[k.val] + 2 }
  | index {i : Instr} (w : Word) (hi : LoadsIndex i) : Effect s i { s with I := w, pc := s.pc + 2 }
  | store {i : Instr} {bytes : List Byte} (hbytes : s.storedBytes i = some bytes)
      (hlow : s.lowAddr bytes.length = none) :
      Effect s i { s with mem := (s.writeRun 0 bytes).mem, pc := s.pc + 2 }
  | keySkip {i : Instr} (k : Nibble) (pc : Word) (hi : (∃ x, i = .skp x) ∨ ∃ x, i = .sknp x) :
      Effect s i { s.putKey k false with pc := pc }
  | wait (x : Nibble) : Effect s (.ldVxK x) (s.startWait x)
  | delay (x : Nibble) : Effect s (.ldDtVx x) (s.setDelay (s.reg x)).advance
  | sound (x : Nibble) : Effect s (.ldStVx x) (s.setSound (s.reg x)).advance
  | fault {i : Instr} {f : Fault} (hf : Raises s i f) : Effect s i (s.halt f)

/-! ### Every instruction has one of the effects -/

section Exec
variable (s : State)

theorem storeBytes_effect {i : Instr} {bytes : List Byte} (hbytes : s.storedBytes i = some bytes) :
    ∃ t, storeBytes .fault bytes s = .next t ∧ Effect s i t := by
  obtain ⟨a, -, hlow, hst⟩ | ⟨hlow, hst⟩ := s.store_eq .fault bytes
  · exact ⟨_, by rw [storeBytes, hst]; rfl, .fault (.lowStore hbytes hlow)⟩
  · refine ⟨_, ?_, .store hbytes (hlow rfl)⟩
    rw [storeBytes, hst, State.writeRun_eq]
    rfl

theorem exec_call_effect (nnn : Addr) : ∃ t, exec (.call nnn) s = .next t ∧ Effect s (.call nnn) t := by
  obtain ⟨hfull, hpush⟩ | ⟨k, hk, hpush⟩ := s.push_eq s.pc
  · exact ⟨_, exec_call_of_push_error hpush, .fault (.overflow nnn hfull)⟩
  · exact ⟨_, exec_call_of_push_ok hpush, .call nnn k hk⟩

theorem exec_ret_effect : ∃ t, exec .ret s = .next t ∧ Effect s .ret t := by
  obtain ⟨hempty, hpop⟩ | ⟨k, hk, hpop⟩ := s.pop_eq
  · exact ⟨_, exec_ret_of_pop_error hpop, .fault (.underflow hempty)⟩
  · exact ⟨_, exec_ret_of_pop_ok hpop, .ret k hk⟩

/-- Releasing a key that is not pressed changes nothing. -/
theorem State.putKey_self (k : Nibble) (p : Bool) (h : s.keyDown k = p) : s.putKey k p = s := by
  subst h
  simp [State.putKey, State.keyDown]

/-- Both key skips release the tested key; they differ in when they skip (R226, R227). -/
theorem exec_skp (x : Nibble) :
    exec (.skp x) s = .next ((s.putKey (s.keyOperand x) false).skipIf (s.keyDown (s.keyOperand x))) := by
  cases h : s.keyDown (s.keyOperand x) <;> simp [exec, execSkp, h, State.putKey_self]

theorem exec_sknp (x : Nibble) :
    exec (.sknp x) s = .next ((s.putKey (s.keyOperand x) false).skipIf (!s.keyDown (s.keyOperand x))) := by
  cases h : s.keyDown (s.keyOperand x) <;> simp [exec, execSknp, h, State.putKey_self]

theorem exec_ldVxMem (x : Nibble) :
    exec (.ldVxMem x) s = .next { s with V := (s.loadRegs 0 (s.readRun (x.toNat + 1))).V, pc := s.pc + 2 } := by
  simp only [exec, execLdVxMem]
  rw [State.loadRegs_eq]
  rfl

/-- Every instruction answers a next state, with its effect. -/
theorem exec_effect (i : Instr) : ∃ t, exec i s = .next t ∧ Effect s i t := by
  cases i with
  | ldByte | addByte | ldReg | orReg | andReg | xorReg | addReg | subReg | shr | subn | shl | ldVxDt =>
    exact ⟨_, rfl, .regs _ (by simp [WritesRegsOnly])⟩
  | ldVxMem x => exact ⟨_, exec_ldVxMem s x, .regs _ (by simp [WritesRegsOnly])⟩
  | rnd x kk => exact ⟨_, rfl, .random x kk _⟩
  | cls => exact ⟨_, rfl, .clear 0⟩
  | drw x y n => exact ⟨_, rfl, .draw x y n _ _⟩
  | jp | jpV0 | seByte | sneByte | seReg | sneReg => exact ⟨_, rfl, .flow _ (by simp)⟩
  | call nnn => exact exec_call_effect s nnn
  | ret => exact exec_ret_effect s
  | ldI | addI | ldF => exact ⟨_, rfl, .index _ (by simp [LoadsIndex])⟩
  | ldB | ldMemVx => exact storeBytes_effect s rfl
  | skp x => exact ⟨_, exec_skp s x, .keySkip _ _ (by simp)⟩
  | sknp x => exact ⟨_, exec_sknp s x, .keySkip _ _ (by simp)⟩
  | ldVxK x => exact ⟨_, rfl, .wait x⟩
  | ldDtVx x => exact ⟨_, rfl, .delay x⟩
  | ldStVx x => exact ⟨_, rfl, .sound x⟩

theorem effect_of_exec {s : State} {i : Instr} {t : State} (h : exec i s = .next t) : Effect s i t := by
  obtain ⟨u, hu, he⟩ := exec_effect s i
  cases hu.symm.trans h
  exact he

end Exec

/-! ### What the effects say of single pieces of state -/

section Effects
variable {s t : State} {i : Instr} {f : Fault} {bytes : List Byte}

theorem State.storedBytes_eq_some (h : s.storedBytes i = some bytes) :
    (∃ x, i = .ldB x ∧ bytes = bcdDigits (s.reg x)) ∨ ∃ x, i = .ldMemVx x ∧ bytes = s.regRun x := by
  cases i <;> cases h
  · exact .inl ⟨_, rfl, rfl⟩
  · exact .inr ⟨_, rfl, rfl⟩

/-- A running machine is halted by a fault of the instruction only. -/
theorem Effect.raises_of_halted (he : Effect s i t) (hs : s.runState = .running) (ht : t.runState = .halted) :
    ∃ f, Raises s i f ∧ t = s.halt f := by
  cases he
  case fault f hf => exact ⟨f, hf, rfl⟩
  case wait => simp at ht
  all_goals simp [hs] at ht

theorem Effect.delay_eq (he : Effect s i t) (hi : ∀ x, i ≠ .ldDtVx x) : t.delay = s.delay := by
  cases he
  case delay x => exact absurd rfl (hi x)
  all_goals rfl

theorem Effect.I_eq (he : Effect s i t) (hi : ¬ LoadsIndex i) : t.I = s.I := by
  cases he
  case index w hindex => exact absurd hindex hi
  all_goals rfl

end Effects

/-! ### Keys that are released (R232) -/

/-- `t` has the keys of `s` but for at most one, which is released. -/
def ReleasesAtMostOne (s t : State) : Prop :=
  ∃ k, (∀ j, j ≠ k → t.keyDown j = s.keyDown j) ∧ (t.keyDown k = true → s.keyDown k = true)

section Keys
variable {s t : State} {i : Instr}

theorem ReleasesAtMostOne.of_key_eq (h : t.key = s.key) : ReleasesAtMostOne s t := by
  have hk (j : Nibble) : t.keyDown j = s.keyDown j := by simp only [State.keyDown, h]
  exact ⟨0, fun j _ => hk j, fun h0 => hk 0 ▸ h0⟩

theorem ReleasesAtMostOne.of_key_eq_putKey {k : Nibble} (h : t.key = (s.putKey k false).key) : ReleasesAtMostOne s t := by
  have hk (j : Nibble) : t.keyDown j = if j = k then false else s.keyDown j := by
    rw [← State.keyDown_putKey]
    simp only [State.keyDown, h]
  exact ⟨k, fun j hj => by rw [hk, if_neg hj], by simp [hk]⟩

theorem Effect.releasesAtMostOne (he : Effect s i t) : ReleasesAtMostOne s t := by
  cases he
  case keySkip => exact .of_key_eq_putKey rfl
  all_goals exact .of_key_eq rfl

theorem State.waitPhase_releasesAtMostOne (s : State) : ReleasesAtMostOne s s.waitPhase := by
  obtain ⟨-, hw⟩ | ⟨k, -, hw⟩ := s.waitPhase_eq <;> rw [hw]
  · exact .of_key_eq rfl
  · exact .of_key_eq_putKey (k := k) rfl

end Keys

/-! ### What a step can do, with the effect of its instruction (R120) -/

section Steps
variable {s t : State}

theorem cases_of_step (h : step s = .next t) :
    (s.runState = .halted ∧ t = s) ∨
    (s.runState = .waitingForKey ∧ t = s.timerPhase.waitPhase) ∨
    (s.runState = .running ∧ 0xFFE < s.pc.toNat ∧ t = s.timerPhase.halt (.fetchOutOfRange s.pc)) ∨
    (s.runState = .running ∧ s.pc.toNat ≤ 0xFFE ∧ (∃ e, decodeWord (s.wordAt s.pc) = .error e) ∧
      t = s.timerPhase.halt (.unknownOpcode s.pc (s.wordAt s.pc))) ∨
    (s.runState = .running ∧ s.pc.toNat ≤ 0xFFE ∧ ∃ i, decodeWord (s.wordAt s.pc) = .ok i ∧ Effect s.timerPhase i t) := by
  obtain ⟨hr, hs⟩ | ⟨hr, hs⟩ | ⟨hr, hpc, hs⟩ | ⟨hr, hpc, he, hs⟩ | ⟨hr, hpc, i, hi, hs⟩ := step_cases s <;>
    rw [hs] at h
  · cases h; exact .inl ⟨hr, rfl⟩
  · cases h; exact .inr (.inl ⟨hr, rfl⟩)
  · cases h; exact .inr (.inr (.inl ⟨hr, hpc, rfl⟩))
  · cases h; exact .inr (.inr (.inr (.inl ⟨hr, hpc, he, rfl⟩)))
  · exact .inr (.inr (.inr (.inr ⟨hr, hpc, i, hi, effect_of_exec h⟩)))

theorem step_of_running {i : Instr} (hr : s.runState = .running) (hpc : s.pc.toNat ≤ 0xFFE)
    (hi : decodeWord (s.wordAt s.pc) = .ok i) : step s = exec i s.timerPhase := by
  obtain ⟨hr', -⟩ | ⟨hr', -⟩ | ⟨-, hpc', -⟩ | ⟨-, -, ⟨e, he⟩, -⟩ | ⟨-, -, j, hj, hs⟩ := step_cases s
  · simp [hr] at hr'
  · simp [hr] at hr'
  · omega
  · simp [hi] at he
  · cases hi.symm.trans hj
    exact hs

theorem step_of_halted (hr : s.runState = .halted) : step s = .next s := by
  simp [step, State.cycle, hr]

theorem step_of_waiting (hr : s.runState = .waitingForKey) : step s = .next s.timerPhase.waitPhase := by
  simp [step, State.cycle, hr, Config.timerFirst]

theorem State.timerPhase_delay_le (s : State) : s.timerPhase.delay.toNat ≤ s.delay.toNat ∧
    s.delay.toNat ≤ s.timerPhase.delay.toNat + 1 := by
  cases htick : s.tickPending with
  | false => simp [State.timerPhase_of_no_tick htick]
  | true =>
    rw [State.timerPhase_of_tick htick]
    simp only [countDown_toNat]
    omega

theorem State.waitPhase_delay (s : State) : s.waitPhase.delay = s.delay := by
  obtain ⟨-, hw⟩ | ⟨k, -, hw⟩ := s.waitPhase_eq <;> rw [hw]
  rfl

theorem State.waitPhase_runState_ne_halted {s : State} (h : s.runState ≠ .halted) : s.waitPhase.runState ≠ .halted := by
  obtain ⟨-, hw⟩ | ⟨k, -, hw⟩ := s.waitPhase_eq <;> rw [hw]
  · exact h
  · simp

/-- The cases of a step that halts the machine. -/
theorem cases_of_halting_step (h : step s = .next t) (hs : s.runState ≠ .halted) (ht : t.runState = .halted) :
    s.runState = .running ∧ ∃ f, t = s.timerPhase.halt f ∧
      ((0xFFE < s.pc.toNat ∧ f = .fetchOutOfRange s.pc) ∨
       (s.pc.toNat ≤ 0xFFE ∧ (∃ e, decodeWord (s.wordAt s.pc) = .error e) ∧ f = .unknownOpcode s.pc (s.wordAt s.pc)) ∨
       (s.pc.toNat ≤ 0xFFE ∧ ∃ i, decodeWord (s.wordAt s.pc) = .ok i ∧ Raises s.timerPhase i f)) := by
  obtain ⟨hr, -⟩ | ⟨hr, rfl⟩ | ⟨hr, hpc, rfl⟩ | ⟨hr, hpc, he, rfl⟩ | ⟨hr, hpc, i, hi, he⟩ := cases_of_step h
  · exact absurd hr hs
  · exact absurd ht (State.waitPhase_runState_ne_halted (by simpa using hs))
  · exact ⟨hr, _, rfl, .inl ⟨hpc, rfl⟩⟩
  · exact ⟨hr, _, rfl, .inr (.inl ⟨hpc, he, rfl⟩)⟩
  · obtain ⟨f, hf, rfl⟩ := he.raises_of_halted (by simpa using hr) ht
    exact ⟨hr, f, rfl, .inr (.inr ⟨hpc, i, hi, hf⟩)⟩

end Steps

/-! ### `load_rom` (R303, R304) -/

/-- The memory of `load_rom`: the bytes below the program region as they were, then the ROM and zeros. -/
def Memory.withRom (m : Memory) (bytes : List Byte) : Memory :=
  m.filter (fun c => decide (c.1 < Config.progBase)) ++ Memory.cellsFrom Config.progBase (programBytes bytes)

section LoadRom
variable {s t : State} {bytes : List Byte}

theorem State.loadRom_eq (s : State) (bytes : List Byte) :
    (bytes.length ≤ romMax ∧ s.loadRom bytes = .ok { s with mem := Memory.withRom s.mem bytes, pc := 0x0200 }) ∨
    (romMax < bytes.length ∧ s.loadRom bytes = .error .romTooLarge) := by
  rw [State.loadRom, romWellFormed]
  by_cases h : bytes.length ≤ romMax
  · exact .inl ⟨h, if_pos (decide_eq_true h)⟩
  · exact .inr ⟨Nat.lt_of_not_le h, if_neg (by simpa using h)⟩

theorem act_loadRom_of_ok (h : s.loadRom bytes = .ok t) : act (.loadRom bytes) s = .next t := by
  simp [act, h]

theorem act_loadRom_of_error {e : LoadError} (h : s.loadRom bytes = .error e) : act (.loadRom bytes) s = .next s := by
  simp [act, h]

end LoadRom

/-! ### The word of a jump (R142, R322) -/

theorem fmtNNN_eq_or {pc : Word} (hpc : pc.toNat < 4096) : fmtNNN 0x1 (pc.setWidth 12) = 0x1000 ||| pc := by
  have hlow : pc = 0x0#4 ++ pc.setWidth 12 := by
    apply BitVec.eq_of_toNat_eq
    refine .trans ?_ (BitVec.toNat_append _ _).symm
    simp [Nat.mod_eq_of_lt hpc]
  calc
    fmtNNN 0x1 (pc.setWidth 12) = (0x1#4 ++ 0x000#12) ||| (0x0#4 ++ pc.setWidth 12) := by
      rw [BitVec.or_append, BitVec.zero_or, BitVec.or_zero]; rfl
    _ = 0x1000 ||| pc := by rw [← hlow]; rfl

theorem toWord_setWidth {pc : Word} (hpc : pc.toNat < 4096) : Addr.toWord (pc.setWidth 12) = pc := by
  apply BitVec.eq_of_toNat_eq
  rw [Addr.toWord, BitVec.toNat_setWidth, BitVec.toNat_setWidth, Nat.mod_eq_of_lt hpc, Nat.mod_eq_of_lt pc.isLt]

/-! ### The obligations -/

/-- Settles O47: by the effects; five of them are shared by several instructions, whose names they list. -/
theorem instructionsWriteOnlyTheirState : Obligations.InstructionsWriteOnlyTheirState := by
  intro i s t h
  cases effect_of_exec h
  case regs V hi =>
    simpa using ⟨fun _ => hi.imp (fun ⟨x, kk, h⟩ => ⟨x, kk, h.imp_right .inl⟩) (.imp_right (.imp_right .inr)), by
      rintro x rfl; simp [WritesRegsOnly] at hi⟩
  case flow pc hi => simpa using fun _ => hi
  case index w hi =>
    simpa using ⟨by rintro x rfl; simp [LoadsIndex] at hi, fun _ => hi⟩
  case store hlow hbytes =>
    obtain ⟨x, rfl, -⟩ | ⟨x, rfl, -⟩ := State.storedBytes_eq_some hbytes <;> simp
  case keySkip k pc hi =>
    simpa using ⟨by rintro - x rfl; simp at hi, fun _ => hi⟩
  all_goals simp

/-- Settles O9: a step halts, waits or runs an instruction, and every instruction answers a next state. -/
theorem everyStepAnswersANextState : Obligations.EveryStepAnswersANextState := by
  intro s
  obtain ⟨-, hs⟩ | ⟨-, hs⟩ | ⟨-, -, hs⟩ | ⟨-, -, -, hs⟩ | ⟨-, -, i, -, hs⟩ := step_cases s
  · exact ⟨_, hs⟩
  · exact ⟨_, hs⟩
  · exact ⟨_, hs⟩
  · exact ⟨_, hs⟩
  · obtain ⟨t, ht, -⟩ := exec_effect s.timerPhase i
    exact ⟨t, hs.trans ht⟩

/-- Settles O3: the two bytes at `pc` are the word that the step decodes. -/
theorem stepRunsTheDecodedInstruction : Obligations.StepRunsTheDecodedInstruction :=
  fun _ _ hr hpc _ hi => step_of_running hr hpc hi

/-- Settles O4: above 0xFFE a running step has one case. -/
theorem fetchOutOfRangeHalts : Obligations.FetchOutOfRangeHalts := by
  intro s hr hpc
  obtain ⟨hr', -⟩ | ⟨hr', -⟩ | ⟨-, -, hs⟩ | ⟨-, hpc', -⟩ | ⟨-, hpc', -⟩ := step_cases s
  · simp [hr] at hr'
  · simp [hr] at hr'
  · exact hs
  · omega
  · omega

/-- Settles O6: a halted step is the identity, `reset` starts anew, and no other action writes `runState` or `haltCause`. -/
theorem haltedIsLeftByResetOnly : Obligations.HaltedIsLeftByResetOnly := by
  intro s f hr hf
  have hstep : step s = .next s := step_of_halted hr
  have hresult : resultOf s s = .err f := by simp [resultOf, hr, hf]
  refine ⟨hstep, by rw [stepResult, hstep]; exact congrArg some hresult, fun a ha => ?_, _, rfl, rfl, rfl⟩
  cases a with
  | step => exact ⟨s, hstep, hr, hf⟩
  | reset => exact absurd rfl ha
  | loadRom bytes =>
    obtain ⟨-, hload⟩ | ⟨-, hload⟩ := s.loadRom_eq bytes
    · exact ⟨_, act_loadRom_of_ok hload, hr, hf⟩
    · exact ⟨s, act_loadRom_of_error hload, hr, hf⟩
  | tick | setKey | getDisplay | takeRedraw | pollBeep => exact ⟨_, rfl, hr, hf⟩

/-- Settles O7: the wait phase, after the timer phase, finds no key or the least one. -/
theorem waitingStepTakesTheLeastKey : Obligations.WaitingStepTakesTheLeastKey := by
  intro s hr
  rw [step_of_waiting hr]
  refine ⟨fun hnone => ?_, fun k hk hlow => ?_⟩
  · have hleast : s.timerPhase.leastKey = none := by simpa [State.leastKey_eq_none] using hnone
    rw [State.waitPhase, hleast]
  · have hleast : s.timerPhase.leastKey = some k := by simpa [State.leastKey_eq_some] using ⟨hk, hlow⟩
    have hwait : s.timerPhase.waitPhase = { (((s.timerPhase.setReg s.waitReg (k.setWidth 8)).putKey k false).advance) with
        runState := .running } := by
      rw [State.waitPhase, hleast, State.timerPhase_waitReg]
    refine ⟨_, congrArg _ hwait, ?_, fun r => ?_, fun j => ?_⟩
    · rw [← s.timerPhase_pc]; rfl
    · exact (State.reg_setReg _ _ _ _).trans (by rw [State.timerPhase_reg, BitVec.ofNat_toNat])
    · exact (State.keyDown_putKey _ _ _ _).trans (by simp)

/-- Settles O12: each of the three ways to halt is one halt after the timer phase. -/
theorem faultsArePrecise : Obligations.FaultsArePrecise := by
  intro s t hs h ht
  obtain ⟨hr, f, rfl, -⟩ := cases_of_halting_step h hs ht
  exact ⟨hr, f, rfl⟩

/-- Settles O13: by the cases of a halting step and of the faults of an instruction. -/
theorem faultCausesAreExact : Obligations.FaultCausesAreExact := by
  intro s t f hs h ht hf
  obtain ⟨-, g, rfl, hcause⟩ := cases_of_halting_step h hs ht
  cases hf
  obtain ⟨hpc, rfl⟩ | ⟨hpc, ⟨e, he⟩, rfl⟩ | ⟨hpc, i, hi, hraise⟩ := hcause
  · exact ⟨rfl, hpc⟩
  · refine ⟨rfl, hpc, rfl, fun row hrow hmatch => ?_⟩
    rw [decodeWord_of_match hrow hmatch] at he
    cases he
  · cases hraise with
    | overflow nnn hfull => exact ⟨hpc, by simpa using hfull, nnn, hi⟩
    | underflow hempty => exact ⟨hpc, by simpa using hempty, hi⟩
    | lowStore hbytes hlow =>
      obtain ⟨hlt, k, hk, rfl, hmin⟩ := State.lowAddr_some _ _ _ hlow
      simp only [State.timerPhase_ea] at hmin hlt ⊢
      obtain ⟨x, rfl, rfl⟩ | ⟨x, rfl, rfl⟩ := State.storedBytes_eq_some hbytes
      · exact ⟨hpc, hlt, x, k, rfl, hmin, .inl ⟨hi, hk⟩⟩
      · rw [State.regRun_length] at hk
        exact ⟨hpc, hlt, x, k, rfl, hmin, .inr ⟨hi, Nat.lt_succ_iff.mp hk⟩⟩

/-- Settles O14: the word at `pc` decodes to the jump to `pc`, which writes `pc` with its own value. -/
theorem selfJumpOnlyCountsTimers : Obligations.SelfJumpOnlyCountsTimers := by
  rintro s ⟨hr, hpc, hword⟩
  have hlt : s.pc.toNat < 4096 := Nat.lt_of_le_of_lt hpc (by decide)
  have hjump : decodeWord (s.wordAt s.pc) = .ok (.jp (s.pc.setWidth 12)) := by
    rw [hword, ← fmtNNN_eq_or hlt]
    exact decodeWord_encode (.jp _)
  have hexec : exec (.jp (s.pc.setWidth 12)) s.timerPhase = .next s.timerPhase := by
    change Host.Outcome.next (s.timerPhase.setPc (Addr.toWord (s.pc.setWidth 12))) = _
    rw [toWord_setWidth hlt, ← s.timerPhase_pc]
    rfl
  refine ⟨_, (step_of_running hr hpc hjump).trans hexec, rfl, ?_⟩
  simpa [State.AtEnd] using ⟨hr, hpc, hword⟩

/-- Settles O45: the key skips and the wait phase release one key, and nothing else writes a key. -/
theorem noStepSetsAKey : Obligations.NoStepSetsAKey := by
  intro s t h
  have hrel : ReleasesAtMostOne s t := by
    obtain ⟨-, rfl⟩ | ⟨-, rfl⟩ | ⟨-, -, rfl⟩ | ⟨-, -, -, rfl⟩ | ⟨-, -, i, -, he⟩ := cases_of_step h
    · exact .of_key_eq rfl
    · simpa [ReleasesAtMostOne] using s.timerPhase.waitPhase_releasesAtMostOne
    · exact .of_key_eq (by simp)
    · exact .of_key_eq (by simp)
    · simpa [ReleasesAtMostOne] using he.releasesAtMostOne
  obtain ⟨k, hother, hk⟩ := hrel
  refine ⟨fun j hj => ?_, k, hother⟩
  by_cases hjk : j = k
  · subst hjk
    exact hk hj
  · rwa [← hother j hjk]

/-- Settles O46: only the timer phase counts, and only `LD DT, Vx` writes `delay` besides. -/
theorem delayFallsByAtMostOne : Obligations.DelayFallsByAtMostOne := by
  intro s t h hi
  have hdelay : t.delay = s.delay ∨ t.delay = s.timerPhase.delay := by
    obtain ⟨-, rfl⟩ | ⟨-, rfl⟩ | ⟨-, -, rfl⟩ | ⟨-, -, -, rfl⟩ | ⟨-, -, i, hdecode, he⟩ := cases_of_step h
    · exact .inl rfl
    · exact .inr (State.waitPhase_delay _)
    · exact .inr rfl
    · exact .inr rfl
    · exact .inr (he.delay_eq fun x hx => hi x (hx ▸ hdecode))
  obtain hd | hd := hdelay <;> rw [hd]
  · exact ⟨le_rfl, Nat.le_succ _⟩
  · exact s.timerPhase_delay_le

end Sys2Proof.Machine

/-!
The invariant of the machine (spec/10_state.md R49): it holds after reset, every effect of an instruction keeps it, and so do the
timer phase, the wait phase, every step and every operation of the host.
-/

namespace Sys2Proof.Machine

section Invariant
variable {s t : State} {i : Instr} {f : Fault}

/-! ### The clauses of the invariant one by one -/

theorem State.reset_inv : State.reset.Inv where
  cause := by simp [State.CauseMatches, State.reset]
  entries := fun k hk => absurd hk (Nat.not_lt_zero k.val)
  low := fun _ _ => rfl
  mem := State.reset_wf

/-- R49(c) where no fault has halted the machine. -/
theorem State.causeMatches_iff_none (hs : s.runState ≠ .halted) : s.CauseMatches ↔ s.haltCause = none := by
  simp [State.CauseMatches, hs]

/-- A fault sets the cause and the run state together. -/
theorem State.Inv.halt (h : s.Inv) (f : Fault) : (s.halt f).Inv where
  cause := by simp [State.CauseMatches]
  entries := h.entries
  low := h.low
  mem := h.mem

/-- A run that passed the check of R67 leaves the bytes below 0x200 alone. -/
theorem State.LowRegionIntact.writeRun (h : s.LowRegionIntact) {bytes : List Byte}
    (hlow : s.lowAddr bytes.length = none) : (s.writeRun 0 bytes).LowRegionIntact := by
  intro a ha
  rw [State.memRead_writeRun_other, h a ha]
  rintro j hj rfl
  rw [Nat.zero_add] at ha
  exact absurd ((State.lowAddr_eq_none _ _).mp hlow j hj) (Nat.not_le_of_lt ha)

/-- The entry that `CALL` writes is the `pc` it was fetched at. -/
theorem State.LiveEntriesValid.call (h : s.LiveEntriesValid) (hpc : s.pc.toNat ≤ 0xFFE) {k : Fin 16}
    (hk : s.sp.val = k.val) (pc : Word) :
    State.LiveEntriesValid { s with stack := s.stack.set k.val s.pc, sp := k.succ, pc := pc } := by
  intro j hj
  have hj : j.val < k.val + 1 := hj
  change ((s.stack.set k.val s.pc)[j.val]).toNat ≤ 0xFFE
  rw [Vector.getElem_set]
  split
  · exact hpc
  · exact h j (by omega)

/-! ### What keeps the invariant -/

theorem State.Inv.timerPhase (h : s.Inv) : s.timerPhase.Inv := by
  rw [State.timerPhase_eq]
  exact ⟨h.cause, h.entries, h.low, h.mem⟩

theorem State.Inv.waitPhase (h : s.Inv) (hs : s.runState = .waitingForKey) : s.waitPhase.Inv := by
  have hnone : s.haltCause = none := (State.causeMatches_iff_none (by simp [hs])).mp h.cause
  obtain ⟨-, hw⟩ | ⟨k, -, hw⟩ := s.waitPhase_eq <;> rw [hw]
  · exact h
  · exact ⟨(State.causeMatches_iff_none (by simp)).mpr hnone, h.entries, h.low, h.mem⟩

/-- Every effect of an instruction fetched in range keeps the invariant of a running machine. -/
theorem State.Inv.effect (h : s.Inv) (hs : s.runState = .running) (hpc : s.pc.toNat ≤ 0xFFE) (he : Effect s i t) :
    t.Inv := by
  cases he
  case fault f hf => exact h.halt f
  case wait x =>
    have hnone : s.haltCause = none := (State.causeMatches_iff_none (by simp [hs])).mp h.cause
    exact ⟨(State.causeMatches_iff_none (by simp)).mpr hnone, h.entries, h.low, h.mem⟩
  case call nnn k hk => exact ⟨h.cause, h.entries.call hpc hk _, h.low, h.mem⟩
  case ret k hk =>
    refine ⟨h.cause, fun j hj => h.entries j ?_, h.low, h.mem⟩
    have hj : j.val < k.val := hj
    omega
  case store hlow hbytes => exact ⟨h.cause, h.entries, h.low.writeRun hlow, s.writeRun_wf _ _ h.mem⟩
  all_goals exact ⟨h.cause, h.entries, h.low, h.mem⟩

theorem State.Inv.step (h : s.Inv) (hstep : Machine.step s = .next t) : t.Inv := by
  obtain ⟨-, rfl⟩ | ⟨hr, rfl⟩ | ⟨-, -, rfl⟩ | ⟨-, -, -, rfl⟩ | ⟨hr, hpc, i, -, he⟩ := cases_of_step hstep
  · exact h
  · exact h.timerPhase.waitPhase (by simpa using hr)
  · exact h.timerPhase.halt _
  · exact h.timerPhase.halt _
  · exact h.timerPhase.effect (by simpa using hr) (by simpa using hpc) he

/-! ### `load_rom` (R303) -/

theorem programBytes_length {bytes : List Byte} (h : bytes.length ≤ romMax) : (programBytes bytes).length = 3584 := by
  rw [romMax] at h
  simp [programBytes, romMax]
  omega

theorem Memory.wf_withRom {m : Memory} (h : Memory.wf m = true) {bytes : List Byte} (hlen : bytes.length ≤ romMax) :
    Memory.wf (Memory.withRom m bytes) = true := by
  refine Memory.wfFrom_append _ _ (Memory.wfFrom_filter m _ h) (by simp) (Nat.zero_le Config.progBase) ?_
  exact Memory.wfFrom_cellsFrom _ _ (by rw [programBytes_length hlen]; decide)

/-- Below the program region `load_rom` leaves memory alone. -/
theorem Memory.get_withRom_low (m : Memory) (bytes : List Byte) {q : Nat} (hq : q < Config.progBase) :
    Memory.get (Memory.withRom m bytes) q = Memory.get m q := by
  rw [Memory.withRom, Memory.get_append_low]
  by_cases hlisted : q ∈ m.map Prod.fst
  · exact if_pos ⟨hq, hlisted⟩
  · rw [if_neg (fun hc => hlisted hc.2), Memory.get_cellsFrom, dif_neg (by omega), Memory.get_of_not_listed m q hlisted]

theorem State.Inv.loadRom (h : s.Inv) {bytes : List Byte} (hload : s.loadRom bytes = .ok t) : t.Inv := by
  obtain ⟨hlen, hok⟩ | ⟨-, herr⟩ := s.loadRom_eq bytes
  · cases hok.symm.trans hload
    refine ⟨h.cause, h.entries, fun a ha => ?_, Memory.wf_withRom h.mem hlen⟩
    exact (Memory.get_withRom_low s.mem bytes ha).trans (h.low a ha)
  · cases herr.symm.trans hload

/-! ### Every action and every interleaving (R6, R321) -/

theorem State.Inv.act {a : Action} (h : s.Inv) (hact : Machine.act a s = .next t) : t.Inv := by
  cases a with
  | step => exact h.step hact
  | reset =>
    cases hact
    have hr := State.reset_inv
    exact ⟨hr.cause, hr.entries, hr.low, hr.mem⟩
  | loadRom bytes =>
    cases hload : s.loadRom bytes with
    | ok u =>
      cases (act_loadRom_of_ok hload).symm.trans hact
      exact h.loadRom hload
    | error e =>
      cases (act_loadRom_of_error hload).symm.trans hact
      exact h
  | getDisplay =>
    cases hact
    exact h
  | tick | setKey | takeRedraw | pollBeep =>
    cases hact
    exact ⟨h.cause, h.entries, h.low, h.mem⟩

/-- An interleaving answers a next state exactly when its first action and the rest do. -/
theorem runActions_cons_eq_next {a : Action} {as : List Action} :
    runActions (a :: as) s = .next t ↔ ∃ u, Machine.act a s = .next u ∧ runActions as u = .next t := by
  rw [runActions]
  cases Machine.act a s <;> simp

theorem State.Inv.runActions {as : List Action} (h : s.Inv) (hrun : Machine.runActions as s = .next t) : t.Inv := by
  induction as generalizing s with
  | nil =>
    cases hrun
    exact h
  | cons a as ih =>
    obtain ⟨u, hact, hrest⟩ := runActions_cons_eq_next.mp hrun
    exact ih (h.act hact) hrest

end Invariant

/-! ### The obligations -/

/-- Settles O2: nothing is listed in memory, no entry is in use, and there is no cause. -/
theorem resetMeetsTheInvariant : Obligations.ResetMeetsTheInvariant := State.reset_inv

/-- Settles O10: by the cases of a step and the effects of an instruction. -/
theorem everyStepKeepsTheInvariant : Obligations.EveryStepKeepsTheInvariant := fun _ _ h hstep => h.step hstep

/-- Settles O11: by induction on the list of actions. -/
theorem everyInterleavingKeepsTheInvariant : Obligations.EveryInterleavingKeepsTheInvariant :=
  fun _ _ _ h hrun => h.runActions hrun

end Sys2Proof.Machine

/-!
Calls, jumps and the register skips (spec/41_control_flow.md), the ALU (spec/42_alu.md), and the instructions that move one value
into `I`, a timer or the wait register: what a result with its flag does to the state, and the obligations assembled from it.
-/

namespace Sys2Proof.Machine

/-! ### The stack and the targets of jumps (R141 to R144) -/

theorem toWord_toNat (nnn : Addr) : (Addr.toWord nnn).toNat = nnn.toNat :=
  BitVec.toNat_setWidth_of_le (by decide)

/-- The unmasked sum does not wrap: it stays below 4096 + 256. -/
theorem State.offsetTarget_toNat (s : State) (nnn : Addr) : (s.offsetTarget nnn).toNat = nnn.toNat + (s.reg 0).toNat := by
  have hbyte : (Byte.toWord (s.reg 0)).toNat = (s.reg 0).toNat := BitVec.toNat_setWidth_of_le (by decide)
  have hnnn : nnn.toNat < 4096 := nnn.isLt
  have hreg : (s.reg 0).toNat < 256 := (s.reg 0).isLt
  rw [State.offsetTarget, BitVec.toNat_add, toWord_toNat, hbyte]
  omega

/-- Settles O22: `RET` pops the entry that `CALL` has pushed. -/
theorem callThenReturnComesBack : Obligations.CallThenReturnComesBack := by
  intro s nnn hsp
  let k : Fin 16 := ⟨s.sp.val, hsp⟩
  have hcall := exec_call_of_push_ok (nnn := nnn) (State.push_of_sp_eq_val s.pc (k := k) rfl)
  refine ⟨_, _, hcall, exec_ret_of_pop_ok (State.pop_of_sp_eq_succ (k := k) rfl), ?_⟩
  simp [State.setPc, k]

/-- Settles O23: each jump sets `pc` to its target, whose value is exact. -/
theorem jumpsGoToTheirTargets : Obligations.JumpsGoToTheirTargets := fun s nnn =>
  ⟨decodeWord_encode (.jp nnn), decodeWord_encode (.jpV0 nnn), ⟨_, rfl, rfl, toWord_toNat nnn⟩,
    ⟨_, rfl, rfl, s.offsetTarget_toNat nnn⟩⟩

/-- Settles O25: the decoder reads no low nibble here, and `SNE` tests the negated condition of `SE`. -/
theorem skipsOnTwoRegisters : Obligations.SkipsOnTwoRegisters := by
  intro s x y z
  rw [append_nibbles_eq_fmtXYN, append_nibbles_eq_fmtXYN]
  refine ⟨decodeWord_seReg x y z, decodeWord_sneReg x y z, ?_, ?_⟩
  · change Host.Outcome.next (s.skipIf (decide (s.reg x = s.reg y))) = _
    simp [State.skipIf_eq]
  · change Host.Outcome.next (s.skipIf (decide (s.reg x ≠ s.reg y))) = _
    simp [State.skipIf_eq]

/-! ### A result and its flag, then the advance (R160) -/

section Results
variable (s : State) (x r : Nibble) (b : Byte)

theorem State.reg_setReg_advance_of_ne {r x : Nibble} (h : r ≠ x) : (s.setReg x b).advance.reg r = s.reg r :=
  (s.reg_setReg_advance x r b).trans (if_neg h)

theorem State.reg_setReg_advance_self : (s.setReg x b).advance.reg x = b :=
  (s.reg_setReg_advance x x b).trans (if_pos rfl)

theorem State.reg_setResult_advance (p : Prop) [Decidable p] :
    (s.setResult x b (decide p)).advance.reg r =
      if r = 0xF then (if p then 1 else 0) else if r = x then b else s.reg r := by
  rw [State.advance_reg, State.reg_setResult, flagByte]
  simp only [decide_eq_true_eq]

end Results

/-! ### Results and shifted-out bits as numbers (R167 to R171) -/

section Numbers
variable (a b : Byte)

theorem add_eq_ofNat : a + b = BitVec.ofNat 8 (a.toNat + b.toNat) := by
  apply BitVec.eq_of_toNat_eq
  simp

theorem sub_eq_ofNat : a - b = BitVec.ofNat 8 (a.toNat + 256 - b.toNat) := by
  apply BitVec.eq_of_toNat_eq
  have hb : b.toNat < 256 := b.isLt
  rw [BitVec.toNat_sub, BitVec.toNat_ofNat]
  congr 1
  omega

theorem shiftRight_one_eq_ofNat : a >>> 1 = BitVec.ofNat 8 (a.toNat / 2) := by
  apply BitVec.eq_of_toNat_eq
  have ha : a.toNat < 256 := a.isLt
  rw [BitVec.toNat_ushiftRight, BitVec.toNat_ofNat, Nat.shiftRight_one]
  omega

theorem shiftLeft_one_eq_ofNat : a <<< 1 = BitVec.ofNat 8 (a.toNat * 2) := by
  apply BitVec.eq_of_toNat_eq
  rw [BitVec.toNat_shiftLeft, BitVec.toNat_ofNat, Nat.shiftLeft_eq, pow_one]

theorem shiftedOutRight_eq : shiftedOutRight a = decide (a.toNat % 2 = 1) := by
  rw [shiftedOutRight, BitVec.getLsbD, Nat.testBit_zero]

theorem shiftedOutLeft_eq : shiftedOutLeft a = decide (128 ≤ a.toNat) := BitVec.msb_eq_decide a

end Numbers

theorem State.shiftOperand_eq (s : State) (src : ShiftSrc) (x y : Nibble) :
    s.shiftOperand src x y = if src = .Y then s.reg y else s.reg x := by
  cases src <;> rfl

/-! ### The obligations on the ALU -/

/-- Settles O27: one register write, of the sum mod 256. -/
theorem addImmediateWrapsWithoutAFlag : Obligations.AddImmediateWrapsWithoutAFlag := by
  refine fun s x kk => ⟨decodeWord_encode (.addByte x kk), _, rfl, rfl, ?_, fun r => s.reg_setReg_advance_of_ne _⟩
  rw [State.reg_setReg_advance_self]
  exact BitVec.toNat_add _ _

/-- Settles O28: one register write each, of a bitwise result. -/
theorem logicWorksBitByBit : Obligations.LogicWorksBitByBit := by
  intro s x y
  simp only [append_nibbles_eq_fmtXYN]
  refine ⟨decodeWord_encode (.orReg x y), decodeWord_encode (.andReg x y), decodeWord_encode (.xorReg x y),
    ⟨_, rfl, rfl, fun r => s.reg_setReg_advance_of_ne _, fun b => ?_⟩,
    ⟨_, rfl, rfl, fun r => s.reg_setReg_advance_of_ne _, fun b => ?_⟩,
    ⟨_, rfl, rfl, fun r => s.reg_setReg_advance_of_ne _, fun b => ?_⟩⟩
  all_goals rw [State.reg_setReg_advance_self]
  · exact BitVec.getLsbD_or
  · exact BitVec.getLsbD_and
  · exact BitVec.getLsbD_xor

/-- Settles O29: the result is the sum and the flag the carry, written last. -/
theorem addDeliversTheCarry : Obligations.AddDeliversTheCarry := by
  intro s x y
  rw [append_nibbles_eq_fmtXYN]
  refine ⟨decodeWord_encode (.addReg x y), _, rfl, rfl, fun r => ?_⟩
  rw [← add_eq_ofNat]
  exact s.reg_setResult_advance x r _ _

/-- Settles O30: the result is the difference and the flag the comparison, written last. -/
theorem subtractsDeliverNotBorrow : Obligations.SubtractsDeliverNotBorrow := by
  intro s x y
  simp only [append_nibbles_eq_fmtXYN, ← sub_eq_ofNat]
  exact ⟨decodeWord_encode (.subReg x y), decodeWord_encode (.subn x y),
    ⟨_, rfl, rfl, fun r => s.reg_setResult_advance x r _ _⟩, ⟨_, rfl, rfl, fun r => s.reg_setResult_advance x r _ _⟩⟩

/-- Settles O31: both shifts are one result and its flag, of the operand that `SHIFT_SRC` selects. -/
theorem shiftsDeliverTheBitShiftedOut : Obligations.ShiftsDeliverTheBitShiftedOut := by
  intro s x y v hv
  rw [← State.shiftOperand_eq] at hv
  have hshr : exec (.shr x y) s = .next (s.setResult x (v >>> 1) (shiftedOutRight v)).advance := by rw [hv]; rfl
  have hshl : exec (.shl x y) s = .next (s.setResult x (v <<< 1) (shiftedOutLeft v)).advance := by rw [hv]; rfl
  rw [shiftedOutRight_eq] at hshr
  rw [shiftedOutLeft_eq] at hshl
  simp only [append_nibbles_eq_fmtXYN, ← shiftRight_one_eq_ofNat, ← shiftLeft_one_eq_ofNat]
  exact ⟨decodeWord_encode (.shr x y), decodeWord_encode (.shl x y),
    ⟨_, hshr, rfl, fun r => s.reg_setResult_advance x r _ _⟩, ⟨_, hshl, rfl, fun r => s.reg_setResult_advance x r _ _⟩⟩

/-- Settles O32: one register write, of the drawn byte under the mask. -/
theorem randomByteIsMasked : Obligations.RandomByteIsMasked := by
  refine fun s x kk => ⟨decodeWord_encode (.rnd x kk), _, rfl, rfl, fun r => State.reg_setReg_advance _ x r _, ?_⟩
  rw [State.reg_setReg_advance_self, BitVec.and_assoc]
  simp

/-! ### The obligations on `I`, the timers and the wait -/

theorem State.glyphOperand_toNat (s : State) (x : Nibble) : (s.glyphOperand x).toNat = (s.reg x).toNat % 16 * 5 := by
  have hmask : (s.reg x &&& 0x0F).toNat = (s.reg x).toNat % 16 := Nat.and_two_pow_sub_one_eq_mod _ 4
  rw [State.glyphOperand, BitVec.toNat_mul, BitVec.toNat_setWidth_of_le (by decide), hmask]
  change (s.reg x).toNat % 16 * 5 % 65536 = _
  omega

/-- Settles O33: each writes `I` with its operand, then advances. -/
theorem indexRegisterIsWritten : Obligations.IndexRegisterIsWritten := by
  refine fun s x nnn => ⟨decodeWord_encode (.ldI nnn), decodeWord_encode (.addI x), decodeWord_encode (.ldF x),
    ⟨_, rfl, rfl, toWord_toNat nnn⟩, ⟨_, rfl, rfl, ?_⟩, ⟨_, rfl, rfl, s.glyphOperand_toNat x⟩⟩
  change (s.I + Byte.toWord (s.reg x)).toNat = _
  rw [BitVec.toNat_add, Byte.toWord, BitVec.toNat_setWidth_of_le (by decide)]

/-- Settles O43: the step that fetches `LD Vx, K` only enters the wait. -/
theorem waitForKeyEntersTheWait : Obligations.WaitForKeyEntersTheWait :=
  fun _ x => ⟨decodeWord_encode (.ldVxK x), rfl⟩

/-- Settles O44: one register or one timer is written, then `pc` advances. -/
theorem timerInstructionsMoveOneByte : Obligations.TimerInstructionsMoveOneByte := fun s x =>
  ⟨decodeWord_encode (.ldVxDt x), decodeWord_encode (.ldDtVx x), decodeWord_encode (.ldStVx x),
    ⟨_, rfl, rfl, fun r => s.reg_setReg_advance x r _⟩, rfl, rfl⟩

end Sys2Proof.Machine

/-!
Loads and stores of memory (spec/43_index_memory.md): what a store instruction answers, what stands at its run afterwards, the
registers after a load, the bits of `I` that no address shows, and the obligations assembled from them.
-/

namespace Sys2Proof.Machine

/-! ### A run written from `EA(0)` up (R66, R194, R195) -/

section Runs
variable {s : State} {bytes : List Byte}

theorem State.memRead_writeRun_zero (hlen : bytes.length ≤ 4096) {k : Nat} (hk : k < bytes.length) :
    (s.writeRun 0 bytes).memRead (s.ea k) = bytes[k] := by
  have h := s.memRead_writeRun 0 bytes (by omega) k hk
  rwa [Nat.zero_add] at h

theorem State.memRead_writeRun_zero_other {a : Addr} (h : ∀ k < bytes.length, a ≠ s.ea k) :
    (s.writeRun 0 bytes).memRead a = s.memRead a :=
  s.memRead_writeRun_other 0 bytes a (by simpa using h)

end Runs

/-! ### What a store instruction answers (R67, R255, R257) -/

section Stores
variable {s : State} {i : Instr} {bytes : List Byte} (hbytes : s.storedBytes i = some bytes)
include hbytes

theorem exec_of_storedBytes : exec i s = storeBytes .fault bytes s := by
  obtain ⟨x, rfl, rfl⟩ | ⟨x, rfl, rfl⟩ := State.storedBytes_eq_some hbytes <;> rfl

theorem exec_store_of_lowAddr_eq_none (hlow : s.lowAddr bytes.length = none) :
    exec i s = .next { s with mem := (s.writeRun 0 bytes).mem, pc := s.pc + 2 } := by
  have hstore : s.store .fault bytes = .ok (s.writeRun 0 bytes) := by simp [State.store, hlow]
  rw [exec_of_storedBytes hbytes, storeBytes, hstore, State.writeRun_eq]
  rfl

theorem exec_store_of_lowAddr_eq_some {a : Addr} (hlow : s.lowAddr bytes.length = some a) :
    exec i s = .next (s.halt (.storeProtected a)) := by
  have hstore : s.store .fault bytes = .error (.storeProtected a) := by simp [State.store, hlow]
  rw [exec_of_storedBytes hbytes, storeBytes, hstore]
  rfl

end Stores

/-! ### What a load of registers answers (R196) -/

theorem State.reg_loadRegs_readRun (s : State) (x r : Nibble) :
    (s.loadRegs 0 (s.readRun (x.toNat + 1))).reg r = if r ≤ x then s.memRead (s.ea r.toNat) else s.reg r := by
  have hle : r ≤ x ↔ r.toNat < (s.readRun (x.toNat + 1)).length := by
    rw [State.readRun_length, Nat.lt_succ_iff, BitVec.le_def]
  rw [State.reg_loadRegs]
  by_cases h : r ≤ x
  · rw [dif_pos (hle.mp h), if_pos h, State.readRun_get]
  · rw [dif_neg (fun hlt => h (hle.mpr hlt)), if_neg h]

/-! ### The obligations on loads and stores -/

theorem bcdDigit_toNat {d : Nat} (h : d < 256) : (BitVec.ofNat 8 d).toNat = d := by
  rw [BitVec.toNat_ofNat, Nat.mod_eq_of_lt h]

/-- Settles O34: the digits are a run of three bytes, which is checked before it is written. -/
theorem bcdDigitsAreStored : Obligations.BcdDigitsAreStored := by
  intro s x
  have hbytes : s.storedBytes (.ldB x) = some (bcdDigits (s.reg x)) := rfl
  have hlen : (bcdDigits (s.reg x)).length ≤ 4096 := by simp [bcdDigits]
  have hbyte : (s.reg x).toNat < 256 := (s.reg x).isLt
  refine ⟨decodeWord_encode (.ldB x), fun hrun => ?_, fun k hk hlow hmin => ?_⟩
  · refine ⟨_, exec_store_of_lowAddr_eq_none hbytes ((State.lowAddr_eq_none _ _).mpr hrun), rfl, ?_, ?_, ?_, ?_⟩
    · exact (congrArg BitVec.toNat (State.memRead_writeRun_zero hlen (k := 0) (by simp [bcdDigits]))).trans
        (bcdDigit_toNat (by omega))
    · exact (congrArg BitVec.toNat (State.memRead_writeRun_zero hlen (k := 1) (by simp [bcdDigits]))).trans
        (bcdDigit_toNat (by omega))
    · exact (congrArg BitVec.toNat (State.memRead_writeRun_zero hlen (k := 2) (by simp [bcdDigits]))).trans
        (bcdDigit_toNat (by omega))
    · exact fun a ha => State.memRead_writeRun_zero_other ha
  · exact exec_store_of_lowAddr_eq_some hbytes (State.lowAddr_eq_some _ _ k hk hlow hmin)

/-- Settles O35: the registers are a run of `x + 1` bytes, which is checked before it is written. -/
theorem registersAreDumped : Obligations.RegistersAreDumped := by
  intro s x
  have hbytes : s.storedBytes (.ldMemVx x) = some (s.regRun x) := rfl
  have hx : x.toNat < 16 := x.isLt
  have hlt (k : Nat) : k < (s.regRun x).length ↔ k ≤ x.toNat := by rw [State.regRun_length, Nat.lt_succ_iff]
  refine ⟨decodeWord_encode (.ldMemVx x), fun hrun => ?_, fun k hk hlow hmin => ?_⟩
  · have hnone : s.lowAddr (s.regRun x).length = none :=
      (State.lowAddr_eq_none _ _).mpr fun k hk => hrun k ((hlt k).mp hk)
    refine ⟨_, exec_store_of_lowAddr_eq_none hbytes hnone, rfl, fun r hr => ?_, fun a ha => ?_⟩
    · have hr : r.toNat < (s.regRun x).length := (hlt _).mpr (BitVec.le_def.mp hr)
      calc
        (s.writeRun 0 (s.regRun x)).memRead (s.ea r.toNat) = (s.regRun x)[r.toNat] :=
          State.memRead_writeRun_zero (by rw [State.regRun_length]; omega) hr
        _ = s.reg r := by rw [State.regRun_get, BitVec.ofNat_toNat, BitVec.setWidth_eq]
    · exact State.memRead_writeRun_zero_other fun k hk => ha k ((hlt k).mp hk)
  · exact exec_store_of_lowAddr_eq_some hbytes (State.lowAddr_eq_some _ _ k ((hlt k).mpr hk) hlow hmin)

/-- Settles O36: the run `EA(0)` to `EA(x)` goes to the registers at its offsets. -/
theorem registersAreLoaded : Obligations.RegistersAreLoaded := fun s x =>
  ⟨decodeWord_encode (.ldVxMem x), s.ea_toNat, _, exec_ldVxMem s x, rfl, s.reg_loadRegs_readRun x⟩

/-- Settles O37: the load reads the addresses that the dump has written, since neither moves `I`. -/
theorem dumpThenLoadReproducesTheRegisters : Obligations.DumpThenLoadReproducesTheRegisters := by
  intro s x hrun
  obtain ⟨-, hdump, -⟩ := registersAreDumped s x
  obtain ⟨t, ht, hframe, hread, -⟩ := hdump hrun
  obtain ⟨-, -, u, hu, hadv, hreg⟩ := registersAreLoaded { t with V := Vector.replicate 16 0 } x
  refine ⟨t, u, ht, hu, ?_, fun r => ?_⟩
  · have hpc : s.pc + 2 + 2 = s.pc + 4 := by rw [BitVec.add_assoc]; rfl
    rw [RegsAndAdvance] at hadv
    rw [hadv, ← hpc, hframe]
  · have hea : t.ea r.toNat = s.ea r.toNat := by rw [hframe]; rfl
    rw [hreg]
    split
    case isTrue hr =>
      change t.memRead (t.ea r.toNat) = _
      rw [hea, hread r hr]
    case isFalse => simp [State.reg]

/-! ### Loads of registers and the value of `I` -/

theorem State.loadRegs_setI (s : State) (w : Word) (k : Nat) (bytes : List Byte) :
    (s.setI w).loadRegs k bytes = (s.loadRegs k bytes).setI w := by
  induction bytes generalizing s k with
  | nil => rfl
  | cons b bytes ih => exact ih { s with V := s.V.setIfInBounds k b } (k + 1)

/-! ### Two values of `I` that give the same addresses (R23, R66) -/

section Index
variable {s t : State} {w : Word} (hw : w.toNat % 4096 = s.I.toNat % 4096)
include hw

theorem State.ea_setI_of_mod_eq (k : Nat) : (s.setI w).ea k = s.ea k := by
  apply BitVec.eq_of_toNat_eq
  rw [State.ea_toNat, State.ea_toNat, State.setI_I, Nat.add_mod, hw, ← Nat.add_mod]

theorem State.readRun_setI_of_mod_eq (n : Nat) : (s.setI w).readRun n = s.readRun n := by
  simp only [State.readRun, State.ea_setI_of_mod_eq hw, State.setI_memRead]

theorem State.lowAddr_setI_of_mod_eq (n : Nat) : (s.setI w).lowAddr n = s.lowAddr n := by
  simp only [State.lowAddr, List.map_congr_left fun k _ => State.ea_setI_of_mod_eq hw k]

theorem State.writeRun_setI_of_mod_eq (k : Nat) (bytes : List Byte) :
    (s.setI w).writeRun k bytes = (s.writeRun k bytes).setI w := by
  induction bytes generalizing s k with
  | nil => rfl
  | cons b bytes ih =>
    rw [State.writeRun, State.writeRun, State.ea_setI_of_mod_eq hw]
    exact ih (s := s.memWrite (s.ea k) b) hw (k + 1)

theorem storeBytes_setI_of_mod_eq {i : Instr} {bytes : List Byte} (hbytes : s.storedBytes i = some bytes)
    (hbytes' : (s.setI w).storedBytes i = some bytes) (h : exec i s = .next t) :
    exec i (s.setI w) = .next (t.setI w) := by
  have hlow' := State.lowAddr_setI_of_mod_eq hw bytes.length
  cases hlow : s.lowAddr bytes.length with
  | none =>
    cases (exec_store_of_lowAddr_eq_none hbytes hlow).symm.trans h
    rw [exec_store_of_lowAddr_eq_none hbytes' (hlow'.trans hlow), State.writeRun_setI_of_mod_eq hw]
    rfl
  | some a =>
    cases (exec_store_of_lowAddr_eq_some hbytes hlow).symm.trans h
    rw [exec_store_of_lowAddr_eq_some hbytes' (hlow'.trans hlow)]
    rfl

/-- An instruction that does not load `I` does with the other value of `I` what it does with this one. -/
theorem exec_setI_of_mod_eq {i : Instr} (hi : ¬ LoadsIndex i) (h : exec i s = .next t) :
    exec i (s.setI w) = .next (t.setI w) := by
  cases i with
  | ldI | addI | ldF => exact absurd (by simp [LoadsIndex]) hi
  | ldB | ldMemVx => exact storeBytes_setI_of_mod_eq hw rfl rfl h
  | ldVxMem x =>
    cases (exec_ldVxMem s x).symm.trans h
    rw [exec_ldVxMem, State.readRun_setI_of_mod_eq hw, State.loadRegs_setI]
    rfl
  | drw x y n =>
    cases h
    rw [exec, execDrw, State.readRun_setI_of_mod_eq hw]
    rfl
  | call nnn =>
    obtain ⟨hfull, hpush⟩ | ⟨k, hk, hpush⟩ := s.push_eq s.pc
    · cases (exec_call_of_push_error hpush).symm.trans h
      exact exec_call_of_push_error (State.push_of_full _ hfull)
    · cases (exec_call_of_push_ok hpush).symm.trans h
      exact exec_call_of_push_ok (State.push_of_sp_eq_val (s := s.setI w) _ hk)
  | ret =>
    obtain ⟨hempty, hpop⟩ | ⟨k, hk, hpop⟩ := s.pop_eq
    · cases (exec_ret_of_pop_error hpop).symm.trans h
      exact exec_ret_of_pop_error (State.pop_of_empty hempty)
    · cases (exec_ret_of_pop_ok hpop).symm.trans h
      exact exec_ret_of_pop_ok (State.pop_of_sp_eq_succ (s := s.setI w) hk)
  | skp x =>
    cases (exec_skp s x).symm.trans h
    exact exec_skp _ x
  | sknp x =>
    cases (exec_sknp s x).symm.trans h
    exact exec_sknp _ x
  | _ =>
    cases h
    rfl

end Index

/-- Settles O38: the loads of `I` write it from operands that agree mod 4096, and for the others `I` is an address only. -/
theorem highBitsOfIndexReachNothingElse : Obligations.HighBitsOfIndexReachNothingElse := by
  intro i s t w hw h
  by_cases hi : LoadsIndex i
  · obtain ⟨nnn, rfl⟩ | ⟨x, rfl⟩ | ⟨x, rfl⟩ := hi <;> cases h
    · exact ⟨_, rfl, rfl, rfl⟩
    · refine ⟨_, rfl, rfl, ?_⟩
      change (w + Byte.toWord (s.reg x)).toNat % 4096 = (s.I + Byte.toWord (s.reg x)).toNat % 4096
      rw [BitVec.toNat_add, BitVec.toNat_add]
      omega
    · exact ⟨_, rfl, rfl, rfl⟩
  · refine ⟨_, exec_setI_of_mod_eq hw hi h, rfl, ?_⟩
    rw [(effect_of_exec h).I_eq hi]
    exact hw

end Sys2Proof.Machine

/-!
The display instructions (spec/44_display.md): which pixels lie under a sprite, what a drawing does to each pixel and when it
collides, and the obligations assembled from them.
-/

namespace Sys2Proof.Machine

/-! ### What `DRW` draws (R212, R213) -/

/-- The drawing of `DRW Vx, Vy, n`: the new display and the collision. -/
def State.drawing (s : State) (x y n : Nibble) : Drawing :=
  drawSprite s.disp (s.reg x).toNat (s.reg y).toNat (s.readRun n.toNat)

theorem exec_drw (s : State) (x y n : Nibble) :
    exec (.drw x y n) s = .next (((s.showDisp (s.drawing x y n).1).setFlag (s.drawing x y n).2).advance) := rfl

section Drawing
variable (s : State) (x y n : Nibble)

theorem underSprite_iff_mem_spriteCells {px py : Nat} (hx : px < 64) :
    UnderSprite s x y n px py ↔
      cellIndex px py ∈ spriteCells (s.reg x).toNat (s.reg y).toNat (s.readRun n.toNat) := by
  rw [mem_spriteCells]
  constructor
  · rintro ⟨r, hr, c, hc, hbit, rfl, rfl⟩
    exact ⟨r, by rwa [State.readRun_length], c, hc, by rwa [State.readRun_get], rfl⟩
  · rintro ⟨r, hr, c, hc, hbit, hcell⟩
    obtain ⟨hpx, hpy⟩ := cellIndex_inj hx (Nat.mod_lt _ (by decide)) hcell
    rw [State.readRun_get] at hbit
    rw [State.readRun_length] at hr
    exact ⟨r, hr, c, hc, hbit, hpx, hpy⟩

/-- Every pixel under a sprite is a pixel of the display: both sums wrap. -/
theorem underSprite_lt {s : State} {x y n : Nibble} {px py : Nat} (h : UnderSprite s x y n px py) : px < 64 ∧ py < 32 := by
  obtain ⟨r, -, c, -, -, rfl, rfl⟩ := h
  exact ⟨Nat.mod_lt _ (by decide), Nat.mod_lt _ (by decide)⟩

theorem State.readRun_nibble_length_le : (s.readRun n.toNat).length ≤ 32 := by
  have hn : n.toNat < 16 := n.isLt
  rw [State.readRun_length]
  omega

/-- A pixel after the drawing: flipped exactly where it lies under the sprite. -/
theorem State.drawing_pixel (px py : Nat) :
    (s.drawing x y n).1.getLsbD (cellIndex px py) =
      (s.pixel px py ^^ decide (cellIndex px py ∈ spriteCells (s.reg x).toNat (s.reg y).toNat (s.readRun n.toNat))) :=
  (drawSprite_spec _ _ _ _ (s.readRun_nibble_length_le n)).1 _

theorem State.drawing_pixel_of_under {px py : Nat} (h : UnderSprite s x y n px py) :
    (s.drawing x y n).1.getLsbD (cellIndex px py) = !s.pixel px py := by
  have hmem := (underSprite_iff_mem_spriteCells s x y n (underSprite_lt h).1).mp h
  rw [State.drawing_pixel, decide_eq_true hmem, Bool.xor_true]

theorem State.drawing_pixel_of_not_under {px py : Nat} (hx : px < 64) (h : ¬ UnderSprite s x y n px py) :
    (s.drawing x y n).1.getLsbD (cellIndex px py) = s.pixel px py := by
  have hmem := mt (underSprite_iff_mem_spriteCells s x y n hx).mpr h
  rw [State.drawing_pixel, decide_eq_false hmem, Bool.xor_false]

/-- A drawing collides when a pixel under the sprite was on. -/
theorem State.drawing_collides_iff :
    (s.drawing x y n).2 = true ↔ ∃ px < 64, ∃ py < 32, UnderSprite s x y n px py ∧ s.pixel px py = true := by
  rw [State.drawing, (drawSprite_spec _ _ _ _ (s.readRun_nibble_length_le n)).2, List.any_eq_true]
  constructor
  · rintro ⟨cell, hcell, hon⟩
    obtain ⟨r, hr, c, hc, hbit, rfl⟩ := (mem_spriteCells _ _ _ _).mp hcell
    have hx : ((s.reg x).toNat + c) % 64 < 64 := Nat.mod_lt _ (by decide)
    exact ⟨_, hx, _, Nat.mod_lt _ (by decide), (underSprite_iff_mem_spriteCells s x y n hx).mpr hcell, hon⟩
  · rintro ⟨px, hx, py, -, hunder, hon⟩
    exact ⟨_, (underSprite_iff_mem_spriteCells s x y n hx).mp hunder, hon⟩

end Drawing

/-! ### Displays with the same pixels, and sprites of states that agree on what they read (R28, R29) -/

theorem State.disp_eq_of_pixel_eq {s t : State} (h : ∀ px < 64, ∀ py < 32, s.pixel px py = t.pixel px py) :
    s.disp = t.disp := by
  apply BitVec.eq_of_getLsbD_eq
  intro i hi
  have hcell : cellIndex (i % 64) (i / 64) = i := Nat.div_add_mod' i 64
  have hpixel := h (i % 64) (Nat.mod_lt _ (by decide)) (i / 64) (by omega)
  simpa only [State.pixel, hcell] using hpixel

theorem underSprite_congr {s t : State} {x y n : Nibble} (hI : t.I = s.I) (hmem : t.mem = s.mem)
    (hx : t.reg x = s.reg x) (hy : t.reg y = s.reg y) (px py : Nat) :
    UnderSprite t x y n px py ↔ UnderSprite s x y n px py := by
  simp only [UnderSprite, State.memRead, State.ea, hI, hmem, hx, hy]

/-! ### The obligations -/

/-- Settles O39: the new display is 0. -/
theorem clearTurnsEveryPixelOff : Obligations.ClearTurnsEveryPixelOff :=
  fun _ => ⟨_, rfl, rfl, fun _ _ _ _ => BitVec.getLsbD_zero⟩

/-- Settles O40: by the pixels of the drawing and its collision, which `VF` receives last. -/
theorem drawFlipsThePixelsUnderTheSprite : Obligations.DrawFlipsThePixelsUnderTheSprite := by
  intro s x y n
  rw [append_nibbles_eq_fmtXYN]
  refine ⟨decodeWord_encode (.drw x y n), _, exec_drw s x y n, rfl, fun px _ py _ => s.drawing_pixel_of_under x y n,
    fun px hx py _ => s.drawing_pixel_of_not_under x y n hx, fun r hr => ?_, fun hcollide => ?_, fun hclear => ?_⟩
  all_goals rw [State.advance_reg, State.reg_setFlag]
  · rw [if_neg hr, State.showDisp_reg]
  · rw [if_pos rfl, (s.drawing_collides_iff x y n).mpr hcollide]; rfl
  · rw [if_pos rfl, Bool.eq_false_iff.mpr (mt (s.drawing_collides_iff x y n).mp hclear)]; rfl

/-- Settles O41: both draws have the same sprite, and a pixel flipped twice is as it was. -/
theorem drawTwiceRestoresTheDisplay : Obligations.DrawTwiceRestoresTheDisplay := by
  intro s x y n hx hy
  obtain ⟨-, t, ht, htframe, htflip, htkeep, htreg, -, -⟩ := drawFlipsThePixelsUnderTheSprite s x y n
  obtain ⟨-, u, hu, -, huflip, hukeep, -, hucollide, -⟩ := drawFlipsThePixelsUnderTheSprite t x y n
  have hsame := underSprite_congr (n := n) (by rw [htframe]) (by rw [htframe]) (htreg x hx) (htreg y hy)
  refine ⟨t, u, ht, hu, State.disp_eq_of_pixel_eq fun px hpx py hpy => ?_, ?_⟩
  · by_cases hunder : UnderSprite s x y n px py
    · rw [huflip px hpx py hpy ((hsame px py).mpr hunder), htflip px hpx py hpy hunder, Bool.not_not]
    · rw [hukeep px hpx py hpy (mt (hsame px py).mp hunder), htkeep px hpx py hpy hunder]
  · rintro ⟨px, hpx, py, hpy, hunder⟩ hoff
    refine hucollide ⟨px, hpx, py, hpy, (hsame px py).mpr hunder, ?_⟩
    rw [htflip px hpx py hpy hunder, hoff px hpx py hpy hunder, Bool.not_false]

end Sys2Proof.Machine

/-!
The key skips (spec/45_keypad_timer_ops.md), reset, `set_key`, the tick source and `load_rom` (spec/60_exceptions.md,
70_reset_and_hazards.md): a skip after a released key, memory after reset and after a load, and the obligations assembled
from them.
-/

namespace Sys2Proof.Machine

/-! ### A key released, then a skip (R225 to R227) -/

theorem State.keyOperand_eq {s : State} {x k : Nibble} (hk : k.toNat = (s.reg x).toNat % 16) : s.keyOperand x = k := by
  apply BitVec.eq_of_toNat_eq
  rw [State.keyOperand, BitVec.toNat_setWidth, hk]

theorem State.putKey_skipIf_eq (s : State) (k : Nibble) (c : Bool) :
    (s.putKey k false).skipIf c =
      { s with key := (s.putKey k false).key, pc := if c then s.pc + 4 else s.pc + 2 } := by
  rw [State.skipIf_eq]
  rfl

/-! ### Memory after reset and after `load_rom` (R48, R303) -/

theorem Memory.initial_in_font {a : Nat} (ha : a < 0x050) : some (Memory.initial a) = Config.font[a]? := by
  have hlen : a < Config.font.length := ha
  rw [List.getElem?_eq_getElem hlen, Memory.initial, if_pos (show Config.fontBase ≤ a from Nat.zero_le a)]
  exact congrArg some (List.getD_eq_getElem _ _ hlen)

theorem Memory.initial_above_font {a : Nat} (ha : 0x050 ≤ a) : Memory.initial a = 0x00 := by
  have hlen : Config.font.length = 0x050 := rfl
  rw [Memory.initial, List.getD_eq_default _ _ (by rw [hlen]; exact ha)]
  exact ite_self _

/-- The program region after `load_rom`: the bytes of the ROM, then zeros. -/
theorem Memory.get_withRom_high (m : Memory) {bytes : List Byte} (hlen : bytes.length ≤ romMax) {q : Nat}
    (hlow : Config.progBase ≤ q) (hq : q < 4096) :
    Memory.get (Memory.withRom m bytes) q = bytes.getD (q - Config.progBase) 0x00 := by
  have hin : Config.progBase ≤ q ∧ q - Config.progBase < (programBytes bytes).length := by
    rw [programBytes_length hlen]
    exact ⟨hlow, by rw [Config.progBase]; omega⟩
  rw [Memory.withRom, Memory.get_append_low, if_neg (fun hc => absurd hc.1 (Nat.not_lt_of_le hlow)), Memory.get_cellsFrom,
    dif_pos hin]
  simp only [programBytes, List.getElem_append]
  split
  · next h => rw [List.getD_eq_getElem _ _ h]
  · next h => rw [List.getElem_replicate, List.getD_eq_default _ _ (Nat.le_of_not_lt h)]

/-! ### The obligations -/

/-- Settles O42: both release the key in the low nibble of `V[x]`, and `SKNP` skips where `SKP` does not. -/
theorem keySkipsConsumeTheKey : Obligations.KeySkipsConsumeTheKey := by
  intro s x k hk
  have hskp := exec_skp s x
  have hsknp := exec_sknp s x
  rw [State.keyOperand_eq hk, State.putKey_skipIf_eq] at hskp hsknp
  refine ⟨decodeWord_encode (.skp x), decodeWord_encode (.sknp x), ⟨_, hskp, rfl, fun j => s.keyDown_putKey k j false⟩,
    ⟨_, hsknp, ?_, fun j => s.keyDown_putKey k j false⟩⟩
  cases s.keyDown k <;> rfl

/-- Settles O1: `State.reset` field by field; above the font nothing but zeros is read. -/
theorem resetLeavesTheSpecsValues : Obligations.ResetLeavesTheSpecsValues := by
  refine ⟨fun r => ?_, rfl, rfl, fun d hd r hr => ?_, fun a ha => Memory.initial_above_font ha,
    fun px _ py _ => BitVec.getLsbD_zero, fun k => ?_, rfl, rfl, rfl, fun k => ?_, rfl, rfl, rfl, rfl, rfl, rfl, fun _ => rfl⟩
  case refine_2 =>
    have haddr : (BitVec.ofNat 12 (5 * d + r)).toNat = 5 * d + r := by rw [BitVec.toNat_ofNat]; omega
    rw [← Memory.initial_in_font (show 5 * d + r < 0x050 by omega), State.memRead, haddr]
    rfl
  all_goals exact Vector.getElem_replicate _

/-- Settles O49: `set_key` writes one key, and a second tick finds its latch set. -/
theorem keysAndTicksArrive : Obligations.KeysAndTicksArrive :=
  fun s k p => ⟨⟨_, rfl, rfl, fun j => s.keyDown_putKey k j p⟩, rfl, rfl⟩

/-- Settles O50: the length decides, and a load writes the program region only. -/
theorem loadRomWritesTheProgramRegion : Obligations.LoadRomWritesTheProgramRegion := by
  intro s bytes
  obtain ⟨hlen, hload⟩ | ⟨hlen, hload⟩ := s.loadRom_eq bytes
  · refine ⟨fun _ => ⟨_, hload, act_loadRom_of_ok hload, rfl, fun a ha => ?_, fun a ha => ?_⟩, fun hlong => ?_⟩
    · exact Memory.get_withRom_low s.mem bytes ha
    · exact Memory.get_withRom_high s.mem hlen ha a.isLt
    · exact absurd hlong (Nat.not_lt_of_le hlen)
  · exact ⟨fun hshort => absurd hshort (Nat.not_le_of_lt hlen), fun _ => ⟨hload, act_loadRom_of_error hload⟩⟩

end Sys2Proof.Machine
